-- ==== Sys2Proof/Word.lean ====
section
/-! DEFINITION. Names for the widths of the core's values (spec/00_scope.md rule R5).
All values are unsigned bit vectors of a stated width, bit 0 the least significant (rule R8). -/

namespace Sys2Proof

/-- A command word `CMD` (rule R55). -/
abbrev CommandWord := BitVec 64

/-- A response word `RSP` (rule R56). -/
abbrev ResponseWord := BitVec 64

/-- The operand field `ARG` of a command word and the result field `Q` of a response word. -/
abbrev Field48 := BitVec 48

/-- One half of the cipher register: `ODD` or `EVEN` (rules R21, R22). -/
abbrev Half := BitVec 24

/-- A 48-bit key, `k0 ‖ k1 ‖ k2 ‖ k3 ‖ k4 ‖ k5` for key bytes in wire order (rule R41). -/
abbrev Key := BitVec 48

/-- A 32-bit word: uid, nonce, keystream word (rule R42). -/
abbrev Word := BitVec 32

/-- One byte. -/
abbrev Byte := BitVec 8

/-- A CRC_A value (rule R26). -/
abbrev CrcWord := BitVec 16

end Sys2Proof
end

