-- ==== Sys2Proof/Machine/Constants.lean ====
section
/-! DEFINITION. The wired constants of the core (spec/00_scope.md rule R5, spec/10_state.md rule R32):
values, not registers; no command writes them and none reads them back. -/

namespace Sys2Proof.Machine

/-- `LF_POLY_ODD` (rule R90): bits 2, 3, 4, 6, 9, 10, 11, 14, 15, 16, 19, 21. -/
def lfPolyOdd : BitVec 24 := 0x29CE5C#24

/-- `LF_POLY_EVEN` (rule R90): bits 2, 11, 16, 17, 18, 23. -/
def lfPolyEven : BitVec 24 := 0x870804#24

/-- The filter's nibble table `T_A` (rule R91): bit `n` is entry `n`. -/
def tableA : BitVec 16 := 0xF22C#16

/-- The filter's nibble table `T_B` (rule R91). -/
def tableB : BitVec 16 := 0xD938#16

/-- The filter's final table `T_C` (rule R91). -/
def tableC : BitVec 32 := 0xEC57E80A#32

/-- The CRC_A initial value (rule R130). -/
def crcInit : BitVec 16 := 0x6363#16

end Sys2Proof.Machine
end

