-- ==== Sys2Proof/Machine/Operands.lean ====
section
/-! DEFINITION. Operand and result forms: how a value is put together bit by bit, and in which order
the bits of a byte and of a word pass through the cipher register (spec/20_memory.md rules R42 to
R46, spec/30_encoding.md rule R57). -/

namespace Sys2Proof.Machine

/-- The `w`-bit value whose bit `i` is `f i`. -/
def bitsOf : (w : Nat) → (Nat → Bool) → BitVec w
  | 0, _ => 0#0
  | n + 1, f => BitVec.cons (f n) (bitsOf n f)

/-- `v[k] <- b`. -/
def writeBit {w : Nat} (v : BitVec w) (k : Nat) (b : Bool) : BitVec w :=
  if b then v ||| BitVec.twoPow w k else v &&& ~~~(BitVec.twoPow w k)

/-- The bit positions of a byte in the order the cipher takes them: least significant first
(rules R43, R103). -/
def byteOrder : List Nat := List.range 8

/-- The bit positions of a word in the order the cipher takes them, `k = i ^ 24` for `i = 0 .. 31`: most
significant byte first, least significant bit first within each byte (rules R42, R104). -/
def wordOrder : List Nat := (List.range 32).map fun i => i ^^^ 24

/-- A result of `w` bits as the field `Q`: zero-extended (rules R56, R57). -/
def resultField {w : Nat} (v : BitVec w) : BitVec 48 := v.setWidth 48

end Sys2Proof.Machine
end

