-- ==== Sys2Proof/Syntax.lean ====
section
/-! DEFINITION. The twenty commands of the C1C command set, version 1, with their operands
(spec/30_encoding.md rules R58 and R59; one constructor per row of spec/opcode_table.json).

Each operand has the exact width `W` of rule R58, so a term of `Instr` is a legal command by its
type; the checks on raw words are the decoder's (Decode.lean), those on assembler lines are in
WellFormed.lean. `e` is the encrypted-feedback flag `E`, which only the six stepping commands have. -/

namespace Sys2Proof

inductive Instr where
  /-- `NOP` (rule R80). -/
  | nop
  /-- `LDKEY key` (rule R81). -/
  | ldkey (key : BitVec 48)
  /-- `RDKEY` (rule R82). -/
  | rdkey
  /-- `LDST odd, even` (rule R83). -/
  | ldst (odd even : BitVec 24)
  /-- `RDST` (rule R84). -/
  | rdst
  /-- `STBIT in`, `STBIT.E in` (rule R102). -/
  | stbit (e : Bool) (inp : BitVec 1)
  /-- `STBYTE in`, `STBYTE.E in` (rule R103). -/
  | stbyte (e : Bool) (inp : BitVec 8)
  /-- `STWORD in`, `STWORD.E in` (rule R104). -/
  | stword (e : Bool) (inp : BitVec 32)
  /-- `RBBIT in`, `RBBIT.E in` (rule R111). -/
  | rbbit (e : Bool) (inp : BitVec 1)
  /-- `RBBYTE in`, `RBBYTE.E in` (rule R112). -/
  | rbbyte (e : Bool) (inp : BitVec 8)
  /-- `RBWORD in`, `RBWORD.E in` (rule R113). -/
  | rbword (e : Bool) (inp : BitVec 32)
  /-- `FILT x` (rule R93): a value of register width, of which the filter reads the low 20 bits. -/
  | filt (x : BitVec 24)
  /-- `PAR x` (rule R94). -/
  | par (x : BitVec 32)
  /-- `SWAP x` (rule R121). -/
  | swap (x : BitVec 32)
  /-- `PRLD n` (rule R123). -/
  | prld (n : BitVec 32)
  /-- `PRSTEP k` (rule R124). -/
  | prstep (k : BitVec 32)
  /-- `CRCINIT` (rule R132). -/
  | crcinit
  /-- `CRCBYTE b` (rule R133). -/
  | crcbyte (b : BitVec 8)
  /-- `CRCRD` (rule R134). -/
  | crcrd
  /-- `CRCCHK r` (rule R135): bits 7:0 are the first received CRC byte, bits 15:8 the second. -/
  | crcchk (r : BitVec 16)
deriving DecidableEq, Repr

end Sys2Proof
end

