-- ==== Sys2Proof/Decode.lean ====
section
/-! DEFINITION. The command format, the opcode map, the decoder and the encoder
(spec/30_encoding.md rules R55 and R57 to R62), and the decoder's outcome for an illegal word
(rules R61, R161, R162). -/

namespace Sys2Proof

/-- The three causes of `IllegalCommand` (spec/60_exceptions.md rule R161). -/
inductive Cause where
  /-- Cause 1: `OP` is not one of the twenty opcodes. -/
  | unknownOpcode
  /-- Cause 2: `RSV ≠ 0`, or `E = 1` in a command that does not take `E`. -/
  | reservedBits
  /-- Cause 3: `ARG[47:W] ≠ 0` for the command's operand width `W`. -/
  | operandRange
deriving DecidableEq, Repr

/-- The cause code reported in `RSP[57:56]` (rule R161). -/
def Cause.code : Cause → BitVec 2
  | .unknownOpcode => 1#2
  | .reservedBits => 2#2
  | .operandRange => 3#2

/-- The outcome of decoding (rule R62): a command, or `IllegalCommand` with one cause. -/
inductive Decoded where
  | command (i : Instr)
  | illegal (c : Cause)
deriving DecidableEq, Repr

def Decoded.isIllegal : Decoded → Bool
  | .command _ => false
  | .illegal _ => true

/-- The twenty mnemonics of rule R58. -/
inductive Mnemonic where
  | NOP | LDKEY | RDKEY | LDST | RDST
  | STBIT | STBYTE | STWORD | RBBIT | RBBYTE | RBWORD
  | FILT | PAR | SWAP | PRLD | PRSTEP
  | CRCINIT | CRCBYTE | CRCRD | CRCCHK
deriving DecidableEq, Repr

/-! ### The fields of a command word (rule R55) -/

/-- `OP = CMD[63:56]`. -/
def opField (w : CommandWord) : BitVec 8 := w.extractLsb' 56 8

/-- `RSV = CMD[55:49]`. -/
def rsvField (w : CommandWord) : BitVec 7 := w.extractLsb' 49 7

/-- `E = CMD[48]`. -/
def eField (w : CommandWord) : Bool := w.getLsbD 48

/-- `ARG = CMD[47:0]`. -/
def argField (w : CommandWord) : Field48 := w.extractLsb' 0 48

/-- The command word with the given `OP`, `E` and `ARG`, and `RSV` zero. -/
def commandWord (op : BitVec 8) (e : Bool) (arg : Field48) : CommandWord :=
  op ++ 0#7 ++ BitVec.ofBool e ++ arg

/-! ### The table of rule R58 -/

/-- The column `OP`. -/
def Mnemonic.opcode : Mnemonic → BitVec 8
  | .NOP => 0x00#8
  | .LDKEY => 0x10#8
  | .RDKEY => 0x11#8
  | .LDST => 0x12#8
  | .RDST => 0x13#8
  | .STBIT => 0x20#8
  | .STBYTE => 0x21#8
  | .STWORD => 0x22#8
  | .RBBIT => 0x28#8
  | .RBBYTE => 0x29#8
  | .RBWORD => 0x2A#8
  | .FILT => 0x30#8
  | .PAR => 0x31#8
  | .SWAP => 0x32#8
  | .PRLD => 0x40#8
  | .PRSTEP => 0x41#8
  | .CRCINIT => 0x50#8
  | .CRCBYTE => 0x51#8
  | .CRCRD => 0x52#8
  | .CRCCHK => 0x53#8

/-- The column "`E` allowed". -/
def Mnemonic.takesE : Mnemonic → Bool
  | .STBIT | .STBYTE | .STWORD | .RBBIT | .RBBYTE | .RBWORD => true
  | .NOP | .LDKEY | .RDKEY | .LDST | .RDST | .FILT | .PAR | .SWAP | .PRLD | .PRSTEP
  | .CRCINIT | .CRCBYTE | .CRCRD | .CRCCHK => false

/-- The column "operand": its width `W` in bits. -/
def Mnemonic.operandWidth : Mnemonic → Nat
  | .NOP | .RDKEY | .RDST | .CRCINIT | .CRCRD => 0
  | .STBIT | .RBBIT => 1
  | .STBYTE | .RBBYTE | .CRCBYTE => 8
  | .CRCCHK => 16
  | .FILT => 24
  | .STWORD | .RBWORD | .PAR | .SWAP | .PRLD | .PRSTEP => 32
  | .LDKEY | .LDST => 48

/-- The opcode map read backwards: the whole 8-bit `OP` is matched against the twenty values of rule
R59 and nothing else. -/
def mnemonicOf (op : BitVec 8) : Option Mnemonic :=
  match op.toNat with
  | 0x00 => some .NOP
  | 0x10 => some .LDKEY
  | 0x11 => some .RDKEY
  | 0x12 => some .LDST
  | 0x13 => some .RDST
  | 0x20 => some .STBIT
  | 0x21 => some .STBYTE
  | 0x22 => some .STWORD
  | 0x28 => some .RBBIT
  | 0x29 => some .RBBYTE
  | 0x2A => some .RBWORD
  | 0x30 => some .FILT
  | 0x31 => some .PAR
  | 0x32 => some .SWAP
  | 0x40 => some .PRLD
  | 0x41 => some .PRSTEP
  | 0x50 => some .CRCINIT
  | 0x51 => some .CRCBYTE
  | 0x52 => some .CRCRD
  | 0x53 => some .CRCCHK
  | _ => none

/-- The command of a mnemonic with flag `e` and operand `arg[W-1:0]` (rules R57, R58). -/
def instrOf (m : Mnemonic) (e : Bool) (arg : Field48) : Instr :=
  match m with
  | .NOP => .nop
  | .LDKEY => .ldkey arg
  | .RDKEY => .rdkey
  | .LDST => .ldst (arg.extractLsb' 24 24) (arg.extractLsb' 0 24)
  | .RDST => .rdst
  | .STBIT => .stbit e (arg.extractLsb' 0 1)
  | .STBYTE => .stbyte e (arg.extractLsb' 0 8)
  | .STWORD => .stword e (arg.extractLsb' 0 32)
  | .RBBIT => .rbbit e (arg.extractLsb' 0 1)
  | .RBBYTE => .rbbyte e (arg.extractLsb' 0 8)
  | .RBWORD => .rbword e (arg.extractLsb' 0 32)
  | .FILT => .filt (arg.extractLsb' 0 24)
  | .PAR => .par (arg.extractLsb' 0 32)
  | .SWAP => .swap (arg.extractLsb' 0 32)
  | .PRLD => .prld (arg.extractLsb' 0 32)
  | .PRSTEP => .prstep (arg.extractLsb' 0 32)
  | .CRCINIT => .crcinit
  | .CRCBYTE => .crcbyte (arg.extractLsb' 0 8)
  | .CRCRD => .crcrd
  | .CRCCHK => .crcchk (arg.extractLsb' 0 16)

/-! ### The decoder (rule R62) -/

/-- `decode(c)` of rule R62: total, the tests in the order of rule R61, so that the lowest-numbered
cause is the one reported (spec/60_exceptions.md rule R162). -/
def decode (w : CommandWord) : Decoded :=
  match mnemonicOf (opField w) with
  | none => .illegal .unknownOpcode
  | some m =>
    if rsvField w ≠ 0#7 then .illegal .reservedBits
    else if eField w && !m.takesE then .illegal .reservedBits
    else if argField w >>> m.operandWidth ≠ 0#48 then .illegal .operandRange
    else .command (instrOf m (eField w) (argField w))

/-! ### The encoder -/

/-- The mnemonic of a command. -/
def Instr.mnemonic : Instr → Mnemonic
  | .nop => .NOP
  | .ldkey _ => .LDKEY
  | .rdkey => .RDKEY
  | .ldst _ _ => .LDST
  | .rdst => .RDST
  | .stbit _ _ => .STBIT
  | .stbyte _ _ => .STBYTE
  | .stword _ _ => .STWORD
  | .rbbit _ _ => .RBBIT
  | .rbbyte _ _ => .RBBYTE
  | .rbword _ _ => .RBWORD
  | .filt _ => .FILT
  | .par _ => .PAR
  | .swap _ => .SWAP
  | .prld _ => .PRLD
  | .prstep _ => .PRSTEP
  | .crcinit => .CRCINIT
  | .crcbyte _ => .CRCBYTE
  | .crcrd => .CRCRD
  | .crcchk _ => .CRCCHK

/-- The value of the `E` field: the flag of a stepping command, zero in every other command. -/
def Instr.eFlag : Instr → Bool
  | .stbit e _ | .stbyte e _ | .stword e _ | .rbbit e _ | .rbbyte e _ | .rbword e _ => e
  | .nop | .ldkey _ | .rdkey | .ldst _ _ | .rdst | .filt _ | .par _ | .swap _ | .prld _
  | .prstep _ | .crcinit | .crcbyte _ | .crcrd | .crcchk _ => false

/-- The value of the `ARG` field: the operand in the low bits, zeros above it (rule R57). -/
def Instr.arg : Instr → Field48
  | .nop | .rdkey | .rdst | .crcinit | .crcrd => 0#48
  | .ldkey key => key
  | .ldst odd even => odd ++ even
  | .stbit _ x | .rbbit _ x => x.setWidth 48
  | .stbyte _ x | .rbbyte _ x | .crcbyte x => x.setWidth 48
  | .crcchk x => x.setWidth 48
  | .filt x => x.setWidth 48
  | .stword _ x | .rbword _ x | .par x | .swap x | .prld x | .prstep x => x.setWidth 48

/-- The command word of a command (rules R55, R58). -/
def encode (i : Instr) : CommandWord :=
  commandWord i.mnemonic.opcode i.eFlag i.arg

/-! ### The match and mask pairs (rule R60) -/

/-- The match value of rule R60: `op << 56`. -/
def Mnemonic.matchBits (m : Mnemonic) : CommandWord := m.opcode.setWidth 64 <<< 56

/-- The mask value of rule R60: the bits of `OP` and `RSV`, the bit of `E` where it is not allowed, and
the bits of `ARG` above the operand. -/
def Mnemonic.maskBits (m : Mnemonic) : CommandWord :=
  (0xFF#64 <<< 56) ||| (0x7F#64 <<< 49) ||| (if m.takesE then 0#64 else 1#64 <<< 48)
    ||| (((1#64 <<< 48) - 1#64) &&& ~~~((1#64 <<< m.operandWidth) - 1#64))

/-! ### The host's reading of an opcode-table word -/

/-- The instruction the decoder reads from the command word whose bits are the low `nbits` bits of
`w` (bit 0 the least significant; the command is one 64-bit word, presented whole, rule R47). -/
def decodeTableWord (nbits w : Nat) : Option Instr :=
  match decode (BitVec.ofNat 64 (w % 2 ^ nbits)) with
  | .command i => some i
  | .illegal _ => none

end Sys2Proof
end

