-- ==== Sys2Proof/Machine/State.lean ====
section
/-! DEFINITION. The state of the core and of its command port, the reasons a step can stop, and reset
(spec/10_state.md rules R20 to R34, spec/60_exceptions.md rule R172).

The core's whole state is the five registers `ODD`, `EVEN`, `PR`, `CRC` and `ERR` (rule R20). It has
no program counter, no register file, no memory and no hidden state (rules R28 to R31), and so `State`
has none. The two other fields are the command port: what the host is about to present, in order, and
the response word the core returned last. -/

namespace Sys2Proof.Machine

/-- What reaches the core from outside (rule R172): a command word the host presents, or the reset
event, which is an input of the core and no command (spec/70_reset_and_hazards.md rule R180). -/
inductive Input where
  | command (w : CommandWord)
  | reset
deriving DecidableEq, Repr

structure State where
  /-- `ODD`, the half of the cipher register whose low 20 bits the filter reads (rule R21). -/
  odd : BitVec 24
  /-- `EVEN`, the other half of the cipher register (rule R22). -/
  even : BitVec 24
  /-- `PR`, the nonce-PRNG word (rule R25). -/
  pr : BitVec 32
  /-- `CRC`, the running CRC_A value (rule R26). -/
  crc : BitVec 16
  /-- `ERR`, the sticky flag: an illegal command has been seen since reset (rule R27). -/
  err : Bool
  /-- What the host has still to present, next first. The sequence of commands is the host's and no
  state of the core (spec/00_scope.md rule R7); the list is the model's own bookkeeping of it. -/
  inputs : List Input
  /-- The response word of the last command, `none` until a command has been answered since reset
  (spec/30_encoding.md rule R56). No rule reads it back: it is the core's output. -/
  rsp : Option (BitVec 64)
deriving DecidableEq, Repr

/-- The faults that stop the machine: there are none, and so no constructor. An illegal command word is
no stop: it raises `IllegalCommand`, whose effect the spec gives and the step takes (rules R160 to
R164). Every legal command completes on every state (rules R24, R160, R183). -/
inductive Fault where
deriving DecidableEq, Repr

/-- The refusals of the model. -/
inductive Refusal where
  /-- Raised by an arm of `exec` for an instruction that has no meaning yet; safe (the model stops
  where the hardware goes on). No arm raises it now. -/
  | notModelled (mnemonic : String)
deriving DecidableEq, Repr

/-- The state right after reset (rules R34, R181): every value is the spec's. Nothing is at the command
port and no response has been returned (the core returns nothing for a reset, rule R172). -/
def State.reset : State where
  odd := 0x000000#24
  even := 0x000000#24
  pr := 0x00000000#32
  crc := 0x6363#16
  err := false
  inputs := []
  rsp := none

end Sys2Proof.Machine
end

