-- ==== Sys2Proof/Machine/Flags.lean ====
section
/-! DEFINITION. The one flag, `ERR`, and the response word that reports it
(spec/10_state.md rule R27, spec/30_encoding.md rule R56). No command computes a carry, zero, sign or
overflow condition. -/

namespace Sys2Proof.Machine

/-- The response word of rule R56: `ERR ‖ ILL ‖ 0000 ‖ CAUSE ‖ 00000000 ‖ Q`. -/
def response (err ill : Bool) (cause : BitVec 2) (q : BitVec 48) : ResponseWord :=
  BitVec.ofBool err ++ BitVec.ofBool ill ++ 0#4 ++ cause ++ 0#8 ++ q

/-- `RSP[63]`. -/
def rspErr (r : ResponseWord) : Bool := r.getLsbD 63

/-- `RSP[62]`. -/
def rspIll (r : ResponseWord) : Bool := r.getLsbD 62

/-- `RSP[57:56]`. -/
def rspCause (r : ResponseWord) : BitVec 2 := r.extractLsb' 56 2

/-- `RSP[47:0]`. -/
def rspQ (r : ResponseWord) : BitVec 48 := r.extractLsb' 0 48

/-- The answer to a legal command with result `q`: `ILL = 0`, `CAUSE = 0`, and the value of `ERR`, which
a legal command leaves alone (rules R27, R56). -/
def State.answer (s : State) (q : BitVec 48) : State :=
  { s with rsp := some (response s.err false 0#2 q) }

end Sys2Proof.Machine
end

