-- ==== Sys2Proof/Machine/Ops.lean ====
section
/-! DEFINITION. The pure functions and the shared operations the meanings are built from: filter,
parity, feedback, the single forward and inverse step, key packing, byte swap, the nonce PRNG, the
CRC_A byte step; then the command port, reset and taking the one exception. -/

namespace Sys2Proof.Machine

/-! ### Filter and parity (spec/41_filter_parity.md) -/

/-- `filter20(x)` (rule R91): five nibble lookups, then the final table. -/
def filter20 (x : BitVec 20) : Bool :=
  let i4 := tableA.getLsbD (x.extractLsb' 0 4).toNat
  let i3 := tableB.getLsbD (x.extractLsb' 4 4).toNat
  let i2 := tableA.getLsbD (x.extractLsb' 8 4).toNat
  let i1 := tableA.getLsbD (x.extractLsb' 12 4).toNat
  let i0 := tableB.getLsbD (x.extractLsb' 16 4).toNat
  let idx : BitVec 5 := BitVec.ofBool i4 ++ BitVec.ofBool i3 ++ BitVec.ofBool i2
    ++ BitVec.ofBool i1 ++ BitVec.ofBool i0
  tableC.getLsbD idx.toNat

/-- The XOR of bits `0` to `n - 1` of `x`. -/
def xorBits {w : Nat} (x : BitVec w) : Nat → Bool
  | 0 => false
  | n + 1 => xorBits x n ^^ x.getLsbD n

/-- `parity32(x)` (rule R92): the XOR of all 32 bits. -/
def parity32 (x : BitVec 32) : Bool := xorBits x 32

/-- `parity32` of a 24-bit argument, which is zero-extended (rule R92). -/
def parity24 (x : BitVec 24) : Bool := parity32 (x.setWidth 32)

/-! ### The cipher register (spec/42_forward_step.md, spec/43_rollback.md) -/

/-- The cipher state: the pair (ODD, EVEN) (spec/00_scope.md rule R12). -/
structure Cipher where
  odd : BitVec 24
  even : BitVec 24
deriving DecidableEq, Repr

def State.cipher (s : State) : Cipher := ⟨s.odd, s.even⟩

def State.setCipher (s : State) (c : Cipher) : State := { s with odd := c.odd, even := c.even }

/-- The keystream bit of a cipher state, `filter20(ODD[19:0])` (rule R91). -/
def Cipher.keystream (c : Cipher) : Bool := filter20 (c.odd.extractLsb' 0 20)

/-- `fb(odd, even, in, e)` (rule R100). -/
def fb (odd even : BitVec 24) (inp e : Bool) : Bool :=
  parity24 ((lfPolyOdd &&& odd) ^^^ (lfPolyEven &&& even)) ^^ inp
    ^^ (e && filter20 (odd.extractLsb' 0 20))

/-- `step1(in, e)` (rule R101): the keystream bit of the state before the shift, and the new state. -/
def step1 (c : Cipher) (inp e : Bool) : Bool × Cipher :=
  let ks := filter20 (c.odd.extractLsb' 0 20)
  let p := fb c.odd c.even inp e
  (ks, { odd := (c.even <<< 1) ||| (BitVec.ofBool p).setWidth 24, even := c.odd })

/-- `unstep1(in, e)` (rule R110): the keystream bit of the forward step it undoes, and the state before
that step. -/
def unstep1 (c : Cipher) (inp e : Bool) : Bool × Cipher :=
  let o := c.even
  let t := c.odd
  let ks := filter20 (o.extractLsb' 0 20)
  let lo := t.extractLsb' 1 23
  let p := t.getLsbD 0
  let a := p ^^ parity24 (lfPolyEven &&& lo.setWidth 24) ^^ parity24 (lfPolyOdd &&& o) ^^ inp
    ^^ (e && ks)
  (ks, { odd := o, even := BitVec.ofBool a ++ lo })

/-- Single steps applied one after the other (spec/00_scope.md rule R9): for each bit position `k` of
the list, in its order, `Q[k] <- one(ARG[k], E)`. -/
def runSteps {w : Nat} (one : Cipher → Bool → Bool → Bool × Cipher) (e : Bool) (arg : BitVec w) :
    List Nat → BitVec w → Cipher → BitVec w × Cipher
  | [], q, c => (q, c)
  | k :: ks, q, c =>
    let r := one c (arg.getLsbD k) e
    runSteps one e arg ks (writeBit q k r.1) r.2

/-! ### Key packing (spec/40_key_state.md) -/

/-- The two halves of a key (rule R81): `ODD[j] = key[(2j) ^ 7]`, `EVEN[j] = key[(2j + 1) ^ 7]`. -/
def packKey (key : BitVec 48) : Cipher where
  odd := bitsOf 24 fun j => key.getLsbD ((2 * j) ^^^ 7)
  even := bitsOf 24 fun j => key.getLsbD ((2 * j + 1) ^^^ 7)

/-- The two halves as a key (rule R82): `Q[2i + 1] = ODD[i ^ 3]`, `Q[2i] = EVEN[i ^ 3]`. -/
def unpackKey (c : Cipher) : BitVec 48 :=
  bitsOf 48 fun n =>
    if n % 2 = 1 then c.odd.getLsbD ((n / 2) ^^^ 3) else c.even.getLsbD ((n / 2) ^^^ 3)

/-! ### Byte swap and the nonce PRNG (spec/44_prng_swap.md) -/

/-- `swap32(x)` (rule R120). -/
def swap32 (x : BitVec 32) : BitVec 32 :=
  x.extractLsb' 0 8 ++ x.extractLsb' 8 8 ++ x.extractLsb' 16 8 ++ x.extractLsb' 24 8

/-- One iteration of rule R122 on the byte-swapped word: shift right by one, the feedback bit enters at
bit 31. -/
def prngStep (y : BitVec 32) : BitVec 32 :=
  BitVec.ofBool (y.getLsbD 16 ^^ y.getLsbD 18 ^^ y.getLsbD 19 ^^ y.getLsbD 21) ++ y.extractLsb' 1 31

/-- `suc(x, n)` (rule R122). -/
def suc (x : BitVec 32) (n : Nat) : BitVec 32 := swap32 (prngStep^[n] (swap32 x))

/-- The linear map of 32-bit words that takes the unit word `2^j` to entry `j - i` of the list, for
`j` from `i` on: the XOR of the entries whose bit is set in `y`. -/
def applyFrom : Nat → List (BitVec 32) → BitVec 32 → BitVec 32
  | _, [], _ => 0#32
  | i, c :: cs, y => (if y.getLsbD i then c else 0#32) ^^^ applyFrom (i + 1) cs y

/-- `prngStep` as a list of columns: the images of the 32 unit words. -/
def prngColumns : List (BitVec 32) := (List.range 32).map fun j => prngStep (BitVec.twoPow 32 j)

/-- The map of `cols` applied `k` times to `y`, for `k < 2^n`, by repeated squaring: `cols` is replaced
by the columns of its square while the binary digits of `k` are read, lowest first. -/
def applyPower : (n : Nat) → (k : Nat) → (cols : List (BitVec 32)) → BitVec 32 → BitVec 32
  | 0, _, _, y => y
  | n + 1, k, cols, y =>
    if k = 0 then y
    else applyPower n (k / 2) (cols.map (applyFrom 0 cols))
      (if k % 2 = 1 then applyFrom 0 cols y else y)

/-- `suc(x, k)` for a 32-bit count, computed in 32 squarings and not in `k` iterations, so that every
count from 0 to 2^32 - 1 can be evaluated (rule R124: the command is one atomic transition however
large `k` is, and a model need not iterate). It is `suc x k.toNat` for every `x` and `k`:
`Sys2Proof.Laws.prngAdvance_eq_suc` in Laws/Prng.lean. -/
def prngAdvance (x k : BitVec 32) : BitVec 32 :=
  swap32 (applyPower 32 k.toNat prngColumns (swap32 x))

/-! ### CRC_A (spec/45_crc_a.md) -/

/-- `crc_step(c, b)` (rule R131). -/
def crcStep (c : BitVec 16) (b : BitVec 8) : BitVec 16 :=
  let t0 : BitVec 8 := b ^^^ c.extractLsb' 0 8
  let t : BitVec 8 := t0 ^^^ (t0 <<< 4)
  let high : BitVec 16 := (c.extractLsb' 8 8).setWidth 16
  let by8 : BitVec 16 := t ++ 0#8
  let by3 : BitVec 11 := t ++ 0#3
  high ^^^ by8 ^^^ by3.setWidth 16 ^^^ (t.extractLsb' 4 4).setWidth 16

/-- `crc_a(d_0, …, d_{n-1})` (rule R130). -/
def crcA (bytes : List (BitVec 8)) : BitVec 16 := bytes.foldl crcStep crcInit

/-! ### The command port, reset and the one exception -/

/-- The next input and the state in which it is taken (rule R50: one at a time, in the host's order). -/
def fetch (s : State) : Option (Input × State) :=
  match s.inputs with
  | [] => none
  | x :: rest => some (x, { s with inputs := rest })

/-- The host presents the command word `w` before anything else it has still to present. -/
def State.present (s : State) (w : CommandWord) : State := { s with inputs := .command w :: s.inputs }

/-- The reset event (rules R34, R180 to R182): all five registers take their reset values, no response
is returned (rule R172), and what the host presents afterwards is the host's own affair. -/
def takeReset (s : State) : State := { State.reset with inputs := s.inputs }

/-- Taking `IllegalCommand(cause)` (rule R163): no data register changes, `ERR <- 1`, and the response
is `ERR = 1`, `ILL = 1`, `CAUSE`, `Q = 0`. There is no handler, no saved state and nothing to return
from: the core takes the next input as usual (rule R164). -/
def takeIllegal (c : Cause) (s : State) : State :=
  { s with err := true, rsp := some (response true true c.code 0#48) }

end Sys2Proof.Machine
end

