-- ==== Sys2Proof/Machine/Crc.lean ====
section
/-! DEFINITION. The meanings of `CRCINIT`, `CRCBYTE`, `CRCRD`, `CRCCHK` (spec/45_crc_a.md). -/

namespace Sys2Proof.Machine

/-- `CRCINIT` (rule R132). -/
def execCrcinit (s : State) : Host.Outcome State Fault Refusal :=
  .next ({ s with crc := crcInit }.answer 0#48)

/-- `CRCBYTE b` (rule R133). -/
def execCrcbyte (b : BitVec 8) (s : State) : Host.Outcome State Fault Refusal :=
  .next ({ s with crc := crcStep s.crc b }.answer 0#48)

/-- `CRCRD` (rule R134). -/
def execCrcrd (s : State) : Host.Outcome State Fault Refusal :=
  .next (s.answer (resultField s.crc))

/-- `CRCCHK r` (rule R135): 1 if the received pair equals `CRC`, else 0. A mismatch is a result and no
exception. -/
def execCrcchk (r : BitVec 16) (s : State) : Host.Outcome State Fault Refusal :=
  .next (s.answer (resultField (BitVec.ofBool (r == s.crc))))

end Sys2Proof.Machine
end

