-- ==== Sys2Proof/Machine/FilterParity.lean ====
section
/-! DEFINITION. The meanings of `FILT` and `PAR` (spec/41_filter_parity.md). -/

namespace Sys2Proof.Machine

/-- `FILT x` (rule R93): the filter of `ARG[19:0]`; `ARG[23:20]` is ignored. -/
def execFilt (x : BitVec 24) (s : State) : Host.Outcome State Fault Refusal :=
  .next (s.answer (resultField (BitVec.ofBool (filter20 (x.extractLsb' 0 20)))))

/-- `PAR x` (rule R94). -/
def execPar (x : BitVec 32) (s : State) : Host.Outcome State Fault Refusal :=
  .next (s.answer (resultField (BitVec.ofBool (parity32 x))))

end Sys2Proof.Machine
end

