-- ==== Sys2Proof/Machine/Forward.lean ====
section
/-! DEFINITION. The meanings of `STBIT`, `STBYTE`, `STWORD` (spec/42_forward_step.md). -/

namespace Sys2Proof.Machine

/-- `STBIT in`, `STBIT.E in` (rule R102): one forward step. -/
def execStbit (e : Bool) (inp : BitVec 1) (s : State) : Host.Outcome State Fault Refusal :=
  let r := step1 s.cipher (inp.getLsbD 0) e
  .next ((s.setCipher r.2).answer (resultField (BitVec.ofBool r.1)))

/-- `STBYTE in`, `STBYTE.E in` (rule R103): eight forward steps, least significant bit first. -/
def execStbyte (e : Bool) (inp : BitVec 8) (s : State) : Host.Outcome State Fault Refusal :=
  let r := runSteps step1 e inp byteOrder 0#8 s.cipher
  .next ((s.setCipher r.2).answer (resultField r.1))

/-- `STWORD in`, `STWORD.E in` (rule R104): thirty-two forward steps, positions `k = i ^ 24`. -/
def execStword (e : Bool) (inp : BitVec 32) (s : State) : Host.Outcome State Fault Refusal :=
  let r := runSteps step1 e inp wordOrder 0#32 s.cipher
  .next ((s.setCipher r.2).answer (resultField r.1))

end Sys2Proof.Machine
end

