-- ==== Sys2Proof/Machine/KeyState.lean ====
section
/-! DEFINITION. The meanings of `NOP`, `LDKEY`, `RDKEY`, `LDST`, `RDST` (spec/40_key_state.md). -/

namespace Sys2Proof.Machine

/-- `NOP` (rule R80): `Q <- 0`, no register is written. -/
def execNop (s : State) : Host.Outcome State Fault Refusal :=
  .next (s.answer 0#48)

/-- `LDKEY key` (rule R81): the key is split into the two halves, `Q <- 0`. -/
def execLdkey (key : BitVec 48) (s : State) : Host.Outcome State Fault Refusal :=
  .next ((s.setCipher (packKey key)).answer 0#48)

/-- `RDKEY` (rule R82): the two halves in key packing. -/
def execRdkey (s : State) : Host.Outcome State Fault Refusal :=
  .next (s.answer (unpackKey s.cipher))

/-- `LDST odd, even` (rule R83). -/
def execLdst (odd even : BitVec 24) (s : State) : Host.Outcome State Fault Refusal :=
  .next ((s.setCipher ⟨odd, even⟩).answer 0#48)

/-- `RDST` (rule R84): `Q[47:24] <- ODD`, `Q[23:0] <- EVEN`. -/
def execRdst (s : State) : Host.Outcome State Fault Refusal :=
  .next (s.answer (s.odd ++ s.even))

end Sys2Proof.Machine
end

