-- ==== Sys2Proof/Machine/Prng.lean ====
section
/-! DEFINITION. The meanings of `SWAP`, `PRLD`, `PRSTEP` (spec/44_prng_swap.md). -/

namespace Sys2Proof.Machine

/-- `SWAP x` (rule R121). -/
def execSwap (x : BitVec 32) (s : State) : Host.Outcome State Fault Refusal :=
  .next (s.answer (resultField (swap32 x)))

/-- `PRLD n` (rule R123). -/
def execPrld (n : BitVec 32) (s : State) : Host.Outcome State Fault Refusal :=
  .next ({ s with pr := n }.answer 0#48)

/-- `PRSTEP k` (rule R124): `PR <- suc(PR, k)`, and `Q` is the new value. -/
def execPrstep (k : BitVec 32) (s : State) : Host.Outcome State Fault Refusal :=
  let v := prngAdvance s.pr k
  .next ({ s with pr := v }.answer (resultField v))

end Sys2Proof.Machine
end

