-- ==== Sys2Proof/Machine/Rollback.lean ====
section
/-! DEFINITION. The meanings of `RBBIT`, `RBBYTE`, `RBWORD` (spec/43_rollback.md). -/

namespace Sys2Proof.Machine

/-- `RBBIT in`, `RBBIT.E in` (rule R111): one inverse step. -/
def execRbbit (e : Bool) (inp : BitVec 1) (s : State) : Host.Outcome State Fault Refusal :=
  let r := unstep1 s.cipher (inp.getLsbD 0) e
  .next ((s.setCipher r.2).answer (resultField (BitVec.ofBool r.1)))

/-- `RBBYTE in`, `RBBYTE.E in` (rule R112): eight inverse steps, bit 7 first. -/
def execRbbyte (e : Bool) (inp : BitVec 8) (s : State) : Host.Outcome State Fault Refusal :=
  let r := runSteps unstep1 e inp byteOrder.reverse 0#8 s.cipher
  .next ((s.setCipher r.2).answer (resultField r.1))

/-- `RBWORD in`, `RBWORD.E in` (rule R113): thirty-two inverse steps, the order of `STWORD` reversed. -/
def execRbword (e : Bool) (inp : BitVec 32) (s : State) : Host.Outcome State Fault Refusal :=
  let r := runSteps unstep1 e inp wordOrder.reverse 0#32 s.cipher
  .next ((s.setCipher r.2).answer (resultField r.1))

end Sys2Proof.Machine
end

