-- ==== Sys2Proof/Machine/Dispatch.lean ====
section
/-! DEFINITION. One arm per command: each calls its meaning. -/

namespace Sys2Proof.Machine

def exec (i : Instr) (s : State) : Host.Outcome State Fault Refusal :=
  match i with
  -- spec/40_key_state.md
  | .nop => Sys2Proof.Machine.execNop s
  | .ldkey key => Sys2Proof.Machine.execLdkey key s
  | .rdkey => Sys2Proof.Machine.execRdkey s
  | .ldst odd even => Sys2Proof.Machine.execLdst odd even s
  | .rdst => Sys2Proof.Machine.execRdst s
  -- spec/42_forward_step.md
  | .stbit e inp => Sys2Proof.Machine.execStbit e inp s
  | .stbyte e inp => Sys2Proof.Machine.execStbyte e inp s
  | .stword e inp => Sys2Proof.Machine.execStword e inp s
  -- spec/43_rollback.md
  | .rbbit e inp => Sys2Proof.Machine.execRbbit e inp s
  | .rbbyte e inp => Sys2Proof.Machine.execRbbyte e inp s
  | .rbword e inp => Sys2Proof.Machine.execRbword e inp s
  -- spec/41_filter_parity.md
  | .filt x => Sys2Proof.Machine.execFilt x s
  | .par x => Sys2Proof.Machine.execPar x s
  -- spec/44_prng_swap.md
  | .swap x => Sys2Proof.Machine.execSwap x s
  | .prld n => Sys2Proof.Machine.execPrld n s
  | .prstep k => Sys2Proof.Machine.execPrstep k s
  -- spec/45_crc_a.md
  | .crcinit => Sys2Proof.Machine.execCrcinit s
  | .crcbyte b => Sys2Proof.Machine.execCrcbyte b s
  | .crcrd => Sys2Proof.Machine.execCrcrd s
  | .crcchk r => Sys2Proof.Machine.execCrcchk r s

end Sys2Proof.Machine
end

