-- ==== Sys2Proof/Machine/Step.lean ====
section
/-! DEFINITION. One step: the core takes the next input and completes it before the next
(spec/00_scope.md rule R6, spec/20_memory.md rule R50). -/

namespace Sys2Proof.Machine

/-- One step. A command word is decoded and executed, or raises `IllegalCommand`; a reset event resets;
with nothing presented the core waits for the next command and nothing changes (it "never acts on its
own", rule R6, and "simply waits for the next command", rule R163). -/
def step (s : State) : Host.Outcome State Fault Refusal :=
  match fetch s with
  | none => .next s
  | some (.reset, t) => .next (takeReset t)
  | some (.command w, t) =>
    match decode w with
    | .command i => exec i t
    | .illegal c => .next (takeIllegal c t)

/-- `s` with the command whose bits are the low `nbits` bits of `w` presented as the very next one. -/
def State.withFetchWord (s : State) (nbits w : Nat) : State :=
  s.present (BitVec.ofNat 64 (w % 2 ^ nbits))

end Sys2Proof.Machine
end

