-- ==== Sys2Proof/Config.lean ====
section
/-! DEFINITION. What the spec leaves open as a named parameter.

The core itself has no parameter: its widths and constants are "immutable data, not configuration"
(spec/00_scope.md rule R5), and the constants stand in Machine/Constants.lean, which a later repair
may mend. The one open parameter belongs to a host-side sequence. -/

namespace Sys2Proof.Config

/-- `NONCE_DIST_SENTINEL`, the value `NONCEDIST` answers when its bounded search finds nothing
(spec/46_sequences.md rule R154; spec/92_eei_decisions.md D23 leaves it OPEN).
A free value: it has no body, so nothing can be proved that rests on its value (log entry 4). -/
opaque nonceDistSentinel : Word

end Sys2Proof.Config
end

