-- ==== Sys2Proof/Machine/Sequences.lean ====
section
/-! DEFINITION. The pseudo-instructions (spec/46_sequences.md rules R145 to R155): fixed sequences of
commands the host issues, with the XORs and comparisons the host does between them. They have no
encoding, are not atomic and are no part of `step`; each is written as what a careful host does with
one core whose port it alone uses. -/

namespace Sys2Proof.Machine

/-- The host presents one command, the core takes it, the host reads the result `Q`
(spec/60_exceptions.md rule R172). `none` would be a step that gives no response; there is none. -/
def issue (i : Instr) (s : State) : Option (BitVec 48 × State) :=
  match step (s.present (encode i)) with
  | .next t =>
    match t.rsp with
    | some r => some (rspQ r, t)
    | none => none
  | .fault _ => none
  | .refused _ => none

/-- Commands issued one after the other, and the list of their results. -/
def issueAll : List Instr → State → Option (List (BitVec 48) × State)
  | [], s => some ([], s)
  | i :: rest, s => do
    let (q, s) ← issue i s
    let (qs, s) ← issueAll rest s
    return (q :: qs, s)

/-- `PRNGSUCC n, k` (rule R145). -/
def prngsucc (n k : Word) (s : State) : Option (Word × State) := do
  let (_, s) ← issue (.prld n) s
  let (q, s) ← issue (.prstep k) s
  return (q.setWidth 32, s)

/-- `CRCA b0, b1, …` (rule R146). -/
def crca (bytes : List Byte) (s : State) : Option (CrcWord × State) := do
  let (_, s) ← issue .crcinit s
  let (_, s) ← issueAll (bytes.map .crcbyte) s
  let (q, s) ← issue .crcrd s
  return (q.setWidth 16, s)

/-- `crc_lo`, `crc_hi`: the two CRC bytes in wire order (rule R44). -/
def crcWire (c : CrcWord) : List Byte := [c.extractLsb' 0 8, c.extractLsb' 8 8]

/-- `INITCIPHER key, uid, nT` (rule R147). -/
def initcipher (key : Key) (uid nT : Word) (s : State) : Option State := do
  let (_, s) ← issue (.ldkey key) s
  let (_, s) ← issue (.stword false (uid ^^^ nT)) s
  return s

/-- `KSBYTE` (rule R148): a keystream byte, drawn while zero is fed. -/
def ksbyte (s : State) : Option (Byte × State) := do
  let (q, s) ← issue (.stbyte false 0#8) s
  return (q.setWidth 8, s)

/-- `KSWORD` (rule R148). -/
def ksword (s : State) : Option (Word × State) := do
  let (q, s) ← issue (.stword false 0#32) s
  return (q.setWidth 32, s)

/-- `ENCBYTES b0, …` (rule R149), which also decrypts. -/
def encbytes : List Byte → State → Option (List Byte × State)
  | [], s => some ([], s)
  | b :: rest, s => do
    let (ks, s) ← ksbyte s
    let (out, s) ← encbytes rest s
    return ((b ^^^ ks) :: out, s)

/-- `READERRESP nR, nT` (rule R150): `(encrypted_nR, encrypted_aR)`. -/
def readerresp (nR nT : Word) (s : State) : Option ((Word × Word) × State) := do
  let (ks1, s) ← issue (.stword false nR) s
  let (aR, s) ← prngsucc nT 64#32 s
  let (ks2, s) ← ksword s
  return ((nR ^^^ ks1.setWidth 32, aR ^^^ ks2), s)

/-- `VERIFYCARD encAT, nT` (rule R151). -/
def verifycard (encAT nT : Word) (s : State) : Option (Bool × State) := do
  let (ks3, s) ← ksword s
  let (expected, s) ← prngsucc nT 96#32 s
  return ((encAT ^^^ ks3) == expected, s)

/-- `VERIFYCARD` where `PR` still holds `suc(nT, 64)`: `PRSTEP 32` in place of `PRNGSUCC nT, 96`
(rule R151). -/
def verifycardContinued (encAT : Word) (s : State) : Option (Bool × State) := do
  let (ks3, s) ← ksword s
  let (expected, s) ← issue (.prstep 32#32) s
  return ((encAT ^^^ ks3) == expected.setWidth 32, s)

/-- `KEYFROMSTATE odd, even, in` (rule R152). -/
def keyfromstate (odd even : Half) (inp : Word) (s : State) : Option (Key × State) := do
  let (_, s) ← issue (.ldst odd even) s
  let (_, s) ← issue (.rbword false inp) s
  let (key, s) ← issue .rdkey s
  return (key, s)

/-- `CLONE` (rule R153), its first half: `RDST -> v` saves the cipher state. -/
def cloneSave (s : State) : Option (BitVec 48 × State) := issue .rdst s

/-- `CLONE` (rule R153), its second half: `LDST v[47:24], v[23:0]` restores it, on the same core or on
another. -/
def cloneRestore (v : BitVec 48) (s : State) : Option State := do
  let (_, s) ← issue (.ldst (v.extractLsb' 24 24) (v.extractLsb' 0 24)) s
  return s

/-- The key type byte of an AUTH frame for key A (rule R155). -/
def keyTypeA : Byte := 0x60#8

/-- The key type byte of an AUTH frame for key B (rule R155). -/
def keyTypeB : Byte := 0x61#8

/-- `AUTHFRAME keyType, block` (rule R155): the four bytes the host sends. -/
def authframe (keyType block : Byte) (s : State) : Option (List Byte × State) := do
  let (c, s) ← crca [keyType, block] s
  return ([keyType, block] ++ crcWire c, s)

/-- `READFRAME block` (rule R155). -/
def readframe (block : Byte) (s : State) : Option (List Byte × State) := do
  let (c, s) ← crca [0x30#8, block] s
  return ([0x30#8, block] ++ crcWire c, s)

/-- The loop of `NONCEDIST` (rule R154) from index `i` on, with `fuel` iterations left. -/
def noncedistLoop (n2 : Word) : (fuel : Nat) → (i : Nat) → State → Option (Word × State)
  | 0, _, s => some (Config.nonceDistSentinel, s)
  | fuel + 1, i, s => do
    let (v, s) ← issue (.prstep 0#32) s
    if v.setWidth 32 = n2 then return (BitVec.ofNat 32 i, s)
    let (_, s) ← issue (.prstep 1#32) s
    noncedistLoop n2 fuel (i + 1) s

/-- `NONCEDIST n1, n2` (rule R154): exits at `i = 0 .. 65535`, else the sentinel. -/
def noncedist (n1 n2 : Word) (s : State) : Option (Word × State) := do
  let (_, s) ← issue (.prld n1) s
  noncedistLoop n2 65536 0 s

end Sys2Proof.Machine
end

