-- ==== Sys2Proof/Safety.lean ====
section
/-! DEFINITION. What counts as a safe run, in the terms the statements use.

A model "that wants 'no fault recorded' as a premise of a claim uses `ERR = 0` in the final response"
(spec/60_exceptions.md rule R164). -/

namespace Sys2Proof.Machine

/-- The word is one of the twenty commands, fully legal (rule R61). -/
def legalWord (w : CommandWord) : Bool := !(decode w).isIllegal

/-- `s` with exactly the given command words still to present. -/
def State.withCommands (s : State) (ws : List CommandWord) : State :=
  { s with inputs := ws.map .command }

/-- The machine can be in `s`: some run from reset, with some inputs presented, leads to it. -/
def Reachable (s : State) : Prop :=
  ∃ inputs k, Sys2Proof.core.run k { State.reset with inputs := inputs } = .next s

/-- The next `k` steps from `s` complete and no illegal command is on record at their end. -/
def SafeRun (k : Nat) (s : State) : Prop :=
  ∃ t, Sys2Proof.core.run k s = .next t ∧ t.err = false

/-- What every response word satisfies beside the registers it reports on (rule R56): the reserved bits
are zero; bit 63 is the `ERR` register; an illegal command's answer has a cause, `ERR` set and `Q = 0`;
a legal command's answer has cause 0. -/
def responseOk (err : Bool) (r : ResponseWord) : Prop :=
  rspErr r = err ∧ r.extractLsb' 58 4 = 0#4 ∧ r.extractLsb' 48 8 = 0#8 ∧
  (rspIll r = true → rspErr r = true ∧ rspCause r ≠ 0#2 ∧ rspQ r = 0#48) ∧
  (rspIll r = false → rspCause r = 0#2)

/-- The response at the port is one the core can have given, and its `ERR` bit is the register's. -/
def ResponsePortOk (s : State) : Prop := ∀ r, s.rsp = some r → responseOk s.err r

end Sys2Proof.Machine
end

