-- ==== Sys2Proof/WellFormed.lean ====
section
/-! DEFINITION. Assembler lines (spec/30_encoding.md rule R64) and which of them are well formed.

A term of `Instr` has operands of the exact widths of rule R58 and a flag only where one is allowed,
so every term of `Instr` is well formed by its type. The place where an ill-formed command can be
written down is the assembler line: a mnemonic, an optional `.E` suffix and operands as numbers. -/

namespace Sys2Proof

/-- One assembler line of rule R64: the mnemonic, whether the suffix `.E` is written, and the
operands as the numbers written. -/
structure AsmLine where
  mnemonic : Mnemonic
  e : Bool
  operands : List Nat
deriving DecidableEq, Repr

/-- The widths of the operands a line writes: one operand of the width of rule R58, none where that
width is 0, and the two halves `ODD`, `EVEN` for `LDST` (rule R64). -/
def Mnemonic.operandWidths (m : Mnemonic) : List Nat :=
  match m with
  | .LDST => [24, 24]
  | _ => if m.operandWidth = 0 then [] else [m.operandWidth]

/-- The line writes as many operands as the command takes. -/
def AsmLine.countOk (l : AsmLine) : Bool := l.operands.length == l.mnemonic.operandWidths.length

/-- Every operand fits its width (rule R61 case 3 refuses a wider one). -/
def AsmLine.rangeOk (l : AsmLine) : Bool :=
  (l.operands.zip l.mnemonic.operandWidths).all fun p => p.1 < 2 ^ p.2

/-- The suffix `.E` stands only on a command that takes it (rule R61 case 2 refuses it elsewhere). -/
def AsmLine.flagOk (l : AsmLine) : Bool := !l.e || l.mnemonic.takesE

def AsmLine.wellFormed (l : AsmLine) : Bool := l.countOk && l.rangeOk && l.flagOk

/-- The `ARG` value of a line: `LDST` joins its two operands, ODD above EVEN; the other commands take
their one operand as it is. -/
def AsmLine.argValue (l : AsmLine) : Nat :=
  match l.operands with
  | [] => 0
  | [x] => x
  | odd :: even :: _ => odd * 2 ^ 24 + even

/-- The command an assembler line stands for; an ill-formed line stands for none. -/
def assemble (l : AsmLine) : Option Instr :=
  if l.wellFormed then some (instrOf l.mnemonic l.e (BitVec.ofNat 48 l.argValue)) else none

/-- The assembler line of a command. -/
def Instr.asmLine (i : Instr) : AsmLine where
  mnemonic := i.mnemonic
  e := i.eFlag
  operands :=
    match i with
    | .ldst odd even => [odd.toNat, even.toNat]
    | _ => if i.mnemonic.operandWidth = 0 then [] else [i.arg.toNat]

end Sys2Proof
end

