-- ==== Sys2Proof/Certificates/Slice0/Obligations.lean ====
section
/-! DEFINITION. The statements about the model, each a formal reading of the rules of spec/ it cites in
OBLIGATIONS.json. A result is stated as the whole next state: what the record update does not name
is unchanged. -/

/-! ### The terms the statements use -/

namespace Sys2Proof.Statements

open Sys2Proof.Machine

/-- The response to a legal command with result `q` (rule R56), when `ERR` is the state's. -/
def legalAnswer (s : State) (q : BitVec 48) : Option (BitVec 64) :=
  some (response s.err false 0#2 q)

/-- One bit as a result: bit 0 of `Q`. -/
def bitResult (b : Bool) : BitVec 48 := if b then 1#48 else 0#48

/-- The XOR of the bits of `v` at the listed positions. -/
def xorAt {w : Nat} (v : BitVec w) : List Nat → Bool
  | [] => false
  | j :: js => v.getLsbD j ^^ xorAt v js

/-- The bits set in `LF_POLY_ODD` (rule R90). -/
def oddTaps : List Nat := [2, 3, 4, 6, 9, 10, 11, 14, 15, 16, 19, 21]

/-- The bits set in `LF_POLY_EVEN` (rule R90). -/
def evenTaps : List Nat := [2, 11, 16, 17, 18, 23]

/-- The filter in the shift-and-mask form of rule R91. -/
def filterShiftMask (x : BitVec 20) : Nat :=
  let n := x.toNat
  let f := ((0xF22C0 >>> (n % 16)) &&& 16) ||| ((0x6C9C0 >>> (n / 16 % 16)) &&& 8)
    ||| ((0x3C8B0 >>> (n / 256 % 16)) &&& 4) ||| ((0x1E458 >>> (n / 4096 % 16)) &&& 2)
    ||| ((0x0D938 >>> (n / 65536)) &&& 1)
  (0xEC57E80A >>> f) &&& 1

/-- The entries of `T_A`, `T_B` and `T_C` as rule R91 lists them. -/
def entriesA : List Nat := [0, 0, 1, 1, 0, 1, 0, 0, 0, 1, 0, 0, 1, 1, 1, 1]
def entriesB : List Nat := [0, 0, 0, 1, 1, 1, 0, 0, 1, 0, 0, 1, 1, 0, 1, 1]
def entriesC : List Nat :=
  [0, 1, 0, 1, 0, 0, 0, 0, 0, 0, 0, 1, 0, 1, 1, 1,
   1, 1, 1, 0, 1, 0, 1, 0, 0, 0, 1, 1, 0, 1, 1, 1]

/-- The filter by the listed entries (rule R91): five nibbles, then the final table. -/
def filterEntries (x : BitVec 20) : Nat :=
  let n := x.toNat
  let i4 := entriesA.getD (n % 16) 0
  let i3 := entriesB.getD (n / 16 % 16) 0
  let i2 := entriesA.getD (n / 256 % 16) 0
  let i1 := entriesA.getD (n / 4096 % 16) 0
  let i0 := entriesB.getD (n / 65536) 0
  entriesC.getD (16 * i4 + 8 * i3 + 4 * i2 + 2 * i1 + i0) 0

/-- How the words with opcode `op` decode, for operand width `W` and `E` allowed or not (rules R58, R61):
cause 2 before cause 3 before the command. -/
def EncodedAs (op : BitVec 8) (W : Nat) (takesE : Bool) (mk : Bool → BitVec 48 → Instr) : Prop :=
  ∀ w : CommandWord, w.extractLsb' 56 8 = op →
    decode w =
      if w.extractLsb' 49 7 ≠ 0#7 ∨ (w.getLsbD 48 = true ∧ takesE = false) then
        .illegal .reservedBits
      else if 2 ^ W ≤ (w.extractLsb' 0 48).toNat then .illegal .operandRange
      else .command (mk (w.getLsbD 48) (w.extractLsb' 0 48))

/-- The rows of spec/opcode_table.json: match and mask. -/
def tableRow : Mnemonic → CommandWord × CommandWord
  | .NOP => (0x0000000000000000#64, 0xFFFFFFFFFFFFFFFF#64)
  | .LDKEY => (0x1000000000000000#64, 0xFFFF000000000000#64)
  | .RDKEY => (0x1100000000000000#64, 0xFFFFFFFFFFFFFFFF#64)
  | .LDST => (0x1200000000000000#64, 0xFFFF000000000000#64)
  | .RDST => (0x1300000000000000#64, 0xFFFFFFFFFFFFFFFF#64)
  | .STBIT => (0x2000000000000000#64, 0xFFFEFFFFFFFFFFFE#64)
  | .STBYTE => (0x2100000000000000#64, 0xFFFEFFFFFFFFFF00#64)
  | .STWORD => (0x2200000000000000#64, 0xFFFEFFFF00000000#64)
  | .RBBIT => (0x2800000000000000#64, 0xFFFEFFFFFFFFFFFE#64)
  | .RBBYTE => (0x2900000000000000#64, 0xFFFEFFFFFFFFFF00#64)
  | .RBWORD => (0x2A00000000000000#64, 0xFFFEFFFF00000000#64)
  | .FILT => (0x3000000000000000#64, 0xFFFFFFFFFF000000#64)
  | .PAR => (0x3100000000000000#64, 0xFFFFFFFF00000000#64)
  | .SWAP => (0x3200000000000000#64, 0xFFFFFFFF00000000#64)
  | .PRLD => (0x4000000000000000#64, 0xFFFFFFFF00000000#64)
  | .PRSTEP => (0x4100000000000000#64, 0xFFFFFFFF00000000#64)
  | .CRCINIT => (0x5000000000000000#64, 0xFFFFFFFFFFFFFFFF#64)
  | .CRCBYTE => (0x5100000000000000#64, 0xFFFFFFFFFFFFFF00#64)
  | .CRCRD => (0x5200000000000000#64, 0xFFFFFFFFFFFFFFFF#64)
  | .CRCCHK => (0x5300000000000000#64, 0xFFFFFFFFFFFF0000#64)

/-- The access matrix of rule R33: which commands write, and which read, the cipher registers. -/
def writesCipher : Mnemonic → Bool
  | .LDKEY | .LDST | .STBIT | .STBYTE | .STWORD | .RBBIT | .RBBYTE | .RBWORD => true
  | _ => false
def readsCipher : Mnemonic → Bool
  | .RDKEY | .RDST | .STBIT | .STBYTE | .STWORD | .RBBIT | .RBBYTE | .RBWORD => true
  | _ => false

/-- The column `PR`. -/
def writesPr : Mnemonic → Bool
  | .PRLD | .PRSTEP => true
  | _ => false
def readsPr : Mnemonic → Bool
  | .PRSTEP => true
  | _ => false

/-- The column `CRC`. -/
def writesCrc : Mnemonic → Bool
  | .CRCINIT | .CRCBYTE => true
  | _ => false
def readsCrc : Mnemonic → Bool
  | .CRCBYTE | .CRCRD | .CRCCHK => true
  | _ => false

/-- The commands with no result (rule R58, last column). -/
def hasNoResult : Mnemonic → Bool
  | .NOP | .LDKEY | .LDST | .PRLD | .CRCINIT | .CRCBYTE => true
  | _ => false

/-- Bit `a[i]` of the conceptual 48-bit shift register (rule R23): `ODD[j] = a[47 - 2j]`,
`EVEN[j] = a[46 - 2j]`; `a[0]` is the oldest bit. -/
def conceptual (odd even : BitVec 24) (i : Nat) : Bool :=
  if i % 2 = 1 then odd.getLsbD ((47 - i) / 2) else even.getLsbD ((46 - i) / 2)

/-- The state with the cipher registers of key `0xA0A1A2A3A4A5`, the source's example key. -/
def exampleKeyState (s : State) : State := { s with odd := 0x33BB33#24, even := 0x08084C#24 }

/-- The eight iterations of rule R137: the bit-serial CRC_A step. -/
def crcBitSerial (b : BitVec 8) : (i fuel : Nat) → BitVec 16 → BitVec 16
  | _, 0, c => c
  | i, fuel + 1, c =>
    crcBitSerial b (i + 1) fuel
      (if (c.getLsbD 0 ^^ b.getLsbD i) = true then (c >>> 1) ^^^ 0x8408#16 else c >>> 1)

/-- The byte step of rule R131 on numbers. -/
def crcByteNumbers (c b : Nat) : Nat :=
  let t0 := b ^^^ (c % 256)
  let t := t0 ^^^ (t0 * 16 % 256)
  (c / 256) ^^^ (t * 256) ^^^ (t * 8) ^^^ (t / 16)

/-- The forward commands, and the rollback command that undoes each (rules R111 to R113). -/
def isForward : Instr → Bool
  | .stbit _ _ | .stbyte _ _ | .stword _ _ => true
  | _ => false
def undo : Instr → Instr
  | .stbit e x => .rbbit e x
  | .stbyte e x => .rbbyte e x
  | .stword e x => .rbword e x
  | i => i

end Sys2Proof.Statements

open Sys2Proof Sys2Proof.Machine Sys2Proof.Statements

/-! ### Encoding and decoding -/

/-- The words spec/30_encoding.md rule R64 and the commands' own rules write out, one at least for each
command. -/
def Obligations.SpecExampleWordsDecode : Prop :=
  decode 0x0000000000000000#64 = .command .nop ∧
  decode 0x1000A0A1A2A3A4A5#64 = .command (.ldkey 0xA0A1A2A3A4A5#48) ∧
  decode 0x1100000000000000#64 = .command .rdkey ∧
  decode 0x120033BB3308084C#64 = .command (.ldst 0x33BB33#24 0x08084C#24) ∧
  decode 0x1300000000000000#64 = .command .rdst ∧
  decode 0x2000000000000000#64 = .command (.stbit false 0#1) ∧
  decode 0x2100000000000000#64 = .command (.stbyte false 0x00#8) ∧
  decode 0x2200000012345678#64 = .command (.stword false 0x12345678#32) ∧
  decode 0x22010000A1E458CE#64 = .command (.stword true 0xA1E458CE#32) ∧
  decode 0x2800000000000000#64 = .command (.rbbit false 0#1) ∧
  decode 0x2900000000000000#64 = .command (.rbbyte false 0x00#8) ∧
  decode 0x2A0000001EFD8D5E#64 = .command (.rbword false 0x1EFD8D5E#32) ∧
  decode 0x3000000000012345#64 = .command (.filt 0x012345#24) ∧
  decode 0x310000007FFFFFFF#64 = .command (.par 0x7FFFFFFF#32) ∧
  decode 0x3200000012345678#64 = .command (.swap 0x12345678#32) ∧
  decode 0x4000000012345678#64 = .command (.prld 0x12345678#32) ∧
  decode 0x4100000000000040#64 = .command (.prstep 64#32) ∧
  decode 0x4100000000000020#64 = .command (.prstep 32#32) ∧
  decode 0x5000000000000000#64 = .command .crcinit ∧
  decode 0x5100000000000060#64 = .command (.crcbyte 0x60#8) ∧
  decode 0x5200000000000000#64 = .command .crcrd ∧
  decode 0x5300000000007BF5#64 = .command (.crcchk 0x7BF5#16)

/-- Every command, with every operand and flag, is read back from its own command word. -/
def Obligations.DecodeOfEncode : Prop := ∀ i : Instr, decode (encode i) = .command i

/-- Every legal word is the command word of the command it decodes to: no bit is dropped. -/
def Obligations.EncodeOfDecode : Prop :=
  ∀ (w : CommandWord) (i : Instr), decode w = .command i → encode i = w

/-- Rule R60: the match and mask pairs of the table are those of the formula; a word selects a command
exactly when it matches that command's row; the rows are disjoint; a word on no row is illegal. -/
def Obligations.MatchMaskSelectsCommand : Prop :=
  (∀ m : Mnemonic, tableRow m = (m.matchBits, m.maskBits)) ∧
  (∀ (w : CommandWord) (m : Mnemonic), w &&& (tableRow m).2 = (tableRow m).1 ↔
    ∃ i, decode w = .command i ∧ i.mnemonic = m) ∧
  (∀ (w : CommandWord) (m m' : Mnemonic), w &&& (tableRow m).2 = (tableRow m).1 →
    w &&& (tableRow m').2 = (tableRow m').1 → m = m') ∧
  (∀ w : CommandWord, (∀ m, w &&& (tableRow m).2 ≠ (tableRow m).1) → ∃ c, decode w = .illegal c)

/-- Rules R61, R62, R162: the three causes in their order, and otherwise the command with its flag and
operand. -/
def Obligations.IllegalCausesInOrder : Prop :=
  ∀ w : CommandWord,
    (decode w = .illegal .unknownOpcode ↔ ∀ m : Mnemonic, w.extractLsb' 56 8 ≠ m.opcode) ∧
    (decode w = .illegal .reservedBits ↔ ∃ m : Mnemonic, w.extractLsb' 56 8 = m.opcode ∧
      (w.extractLsb' 49 7 ≠ 0#7 ∨ (w.getLsbD 48 = true ∧ m.takesE = false))) ∧
    (decode w = .illegal .operandRange ↔ ∃ m : Mnemonic, w.extractLsb' 56 8 = m.opcode ∧
      w.extractLsb' 49 7 = 0#7 ∧ (w.getLsbD 48 = true → m.takesE = true) ∧
      2 ^ m.operandWidth ≤ (w.extractLsb' 0 48).toNat) ∧
    (∀ i : Instr, decode w = .command i ↔ w.extractLsb' 56 8 = i.mnemonic.opcode ∧
      w.extractLsb' 49 7 = 0#7 ∧ w.getLsbD 48 = i.eFlag ∧ w.extractLsb' 0 48 = i.arg) ∧
    ((∃ i, decode w = .command i) ∨ ∃ c, decode w = .illegal c)

/-- An assembler line written for a command (rule R64) is well formed and assembles to that command. -/
def Obligations.AssembleOfAsmLine : Prop :=
  ∀ i : Instr, i.asmLine.wellFormed = true ∧ assemble i.asmLine = some i

/-! ### The machine as a whole -/

/-- When the next input is a word that decodes to a command, the step is `exec` of that command with
the word taken from the port. -/
def Obligations.StepRunsDecodedCommand : Prop :=
  (∀ (s : State) (w : CommandWord) (rest : List Input) (i : Instr),
    s.inputs = .command w :: rest → decode w = .command i →
    step s = exec i { s with inputs := rest }) ∧
  (∀ (s : State) (w : CommandWord) (i : Instr), decode w = .command i →
    step (s.withFetchWord 64 w.toNat) = exec i s)

/-- Rule R163: an illegal word changes no data register, sets `ERR`, and is answered by one of the three
words; the step completes and the next input is the next in line. -/
def Obligations.IllegalCommandEffect : Prop :=
  ∀ (s : State) (w : CommandWord) (rest : List Input) (c : Cause),
    s.inputs = .command w :: rest → decode w = .illegal c →
    step s = .next { s with
      inputs := rest
      err := true
      rsp := some (match c with
        | .unknownOpcode => 0xC100000000000000#64
        | .reservedBits => 0xC200000000000000#64
        | .operandRange => 0xC300000000000000#64) }

/-- Rule R164: after an exception the next command is decoded and executed as usual; its answer has
`ILL = 0`, `CAUSE = 0`, `ERR = 1` and the result it would have had; a second illegal command behaves
as the first; `ERR` stays 1 until reset. -/
def Obligations.AfterExceptionCommandsRun : Prop :=
  (∀ (s : State) (w v : CommandWord) (rest : List Input) (c : Cause),
    s.inputs = .command w :: .command v :: rest → decode w = .illegal c →
    ∃ t, step s = .next t ∧
      (∀ i, decode v = .command i → ∃ (u : State) (q : BitVec 48),
        step t = .next { u with err := true, rsp := some (response true false 0#2 q) } ∧
        exec i { s with inputs := rest, err := false } =
          .next { u with err := false, rsp := some (response false false 0#2 q) }) ∧
      (∀ d, decode v = .illegal d →
        step t = .next { s with
          inputs := rest, err := true, rsp := some (response true true d.code 0#48) })) ∧
  (∀ s t : State, s.err = true → (∀ rest, s.inputs ≠ .reset :: rest) → step s = .next t →
    t.err = true)

/-- Rule R56: every command word is answered by one response word with the fields of the table. -/
def Obligations.ResponseWordFields : Prop :=
  ∀ (s : State) (w : CommandWord) (rest : List Input), s.inputs = .command w :: rest →
    ∃ t r, step s = .next t ∧ t.rsp = some r ∧
      r.getLsbD 63 = t.err ∧
      r.extractLsb' 58 4 = 0#4 ∧
      r.extractLsb' 48 8 = 0#8 ∧
      (∀ c, decode w = .illegal c → r.getLsbD 62 = true ∧ r.extractLsb' 0 48 = 0#48 ∧
        r.extractLsb' 56 2 = match c with
          | .unknownOpcode => 1#2
          | .reservedBits => 2#2
          | .operandRange => 3#2) ∧
      (∀ i, decode w = .command i → r.getLsbD 62 = false ∧ r.extractLsb' 56 2 = 0#2 ∧
        (hasNoResult i.mnemonic = true → r.extractLsb' 0 48 = 0#48))

/-- Rule R27: `ERR` is set by an illegal command, cleared only by reset, reported by every response, and
no legal command is refused or changed because it is set. -/
def Obligations.ErrFlagRule : Prop :=
  (∀ s t : State, step s = .next t →
    t.err = match s.inputs with
      | [] => s.err
      | .reset :: _ => false
      | .command w :: _ => s.err || (decode w).isIllegal) ∧
  (∀ (s t : State) (w : CommandWord) (rest : List Input), s.inputs = .command w :: rest →
    step s = .next t → t.rsp.map (fun r => r.getLsbD 63) = some t.err) ∧
  (∀ (i : Instr) (s : State) (b : Bool), ∃ (t : State) (q : BitVec 48),
    exec i s = .next { t with err := s.err, rsp := some (response s.err false 0#2 q) } ∧
    exec i { s with err := b } = .next { t with err := b, rsp := some (response b false 0#2 q) })

/-- Rules R34 and R181: the state after reset, and that the first response after it has `ERR = 0` unless
the first command is illegal. -/
def Obligations.ResetStateValues : Prop :=
  State.reset.odd = 0x000000#24 ∧ State.reset.even = 0x000000#24 ∧
  State.reset.pr = 0x00000000#32 ∧ State.reset.crc = 0x6363#16 ∧ State.reset.err = false ∧
  (∀ w : CommandWord, ∃ t r, step (State.reset.present w) = .next t ∧ t.rsp = some r ∧
    r.getLsbD 63 = (decode w).isIllegal)

/-- Rule R182 (and R180): the reset event gives the reset values whatever was there before; it clears
`ERR`, and nothing else does; the cipher state after it is that of the all-zero key. That the response
port is emptied and the inputs still to come are kept is the model's choice (log entry 2). -/
def Obligations.ResetClearsErrAndKey : Prop :=
  (∀ (s : State) (rest : List Input), s.inputs = .reset :: rest →
    step s = .next { State.reset with inputs := rest }) ∧
  (∀ s t : State, s.err = true → step s = .next t → t.err = false →
    ∃ rest, s.inputs = .reset :: rest) ∧
  (∀ s : State, ∃ t, exec (.ldkey 0#48) s = .next t ∧ t.odd = State.reset.odd ∧
    t.even = State.reset.even)

/-- Rule R33: every command completes and leaves alone each register its row does not mark as written;
a register its row does not mark as read has no part in its result; the three groups are independent;
an illegal command writes `ERR` only. -/
def Obligations.AccessMatrix : Prop :=
  (∀ (i : Instr) (s : State), ∃ t, exec i s = .next t ∧
    (writesCipher i.mnemonic = false → t.odd = s.odd ∧ t.even = s.even) ∧
    (writesPr i.mnemonic = false → t.pr = s.pr) ∧
    (writesCrc i.mnemonic = false → t.crc = s.crc) ∧
    t.err = s.err ∧ t.inputs = s.inputs) ∧
  (∀ (i : Instr) (s s' t t' : State), exec i s = .next t → exec i s' = .next t' →
    (readsCipher i.mnemonic = true → s.odd = s'.odd ∧ s.even = s'.even) →
    (readsPr i.mnemonic = true → s.pr = s'.pr) →
    (readsCrc i.mnemonic = true → s.crc = s'.crc) →
    t.rsp.map rspQ = t'.rsp.map rspQ ∧
    (writesCipher i.mnemonic = true → t.odd = t'.odd ∧ t.even = t'.even) ∧
    (writesPr i.mnemonic = true → t.pr = t'.pr) ∧
    (writesCrc i.mnemonic = true → t.crc = t'.crc)) ∧
  (∀ m : Mnemonic,
    (readsCipher m = true → writesPr m = false ∧ writesCrc m = false) ∧
    (readsPr m = true → writesCipher m = false ∧ writesCrc m = false) ∧
    (readsCrc m = true → writesCipher m = false ∧ writesPr m = false)) ∧
  (∀ (s t : State) (w : CommandWord) (rest : List Input) (c : Cause),
    s.inputs = .command w :: rest → decode w = .illegal c → step s = .next t →
    t.odd = s.odd ∧ t.even = s.even ∧ t.pr = s.pr ∧ t.crc = s.crc ∧ t.err = true)

/-- Rule R192: every command completes and produces its response. No step faults or is refused: that the
core, with nothing presented, takes a step at all is the model's choice (log entry 3). -/
def Obligations.EveryCommandAnswered : Prop :=
  (∀ (s : State) (w : CommandWord) (rest : List Input), s.inputs = .command w :: rest →
    ∃ t r, step s = .next t ∧ t.rsp = some r ∧ t.inputs = rest) ∧
  (∀ s : State, ∃ t, step s = .next t)

/-- The response at the port stays one the core can give (rule R56), from any state in which it is. Over a
reset event it holds because the model empties the port, which is its choice (log entry 2). -/
def Obligations.StepKeepsResponsePort : Prop :=
  ∀ s t : State, ResponsePortOk s → step s = .next t → ResponsePortOk t

/-- The response port is in order after reset: there is no response yet, which is the model's choice
(log entry 2; the core returns nothing for a reset, rule R172). -/
def Obligations.ResponsePortAtReset : Prop :=
  State.reset.rsp = none ∧ ResponsePortOk State.reset

/-- Rules R20, R31, R50: a step depends on the five registers and the input it takes, on nothing kept from
the last response and on nothing presented later. For the reset event two points of it are the model's
choice (log entry 2): the port does not keep the last response, the inputs still to come are kept. -/
def Obligations.StepSeesRegistersAndInputOnly : Prop :=
  ∀ (s : State) (x : Input) (rest rest' : List Input) (r : Option (BitVec 64)),
    s.inputs = x :: rest → ∃ t, step s = .next t ∧
      step { s with rsp := r, inputs := x :: rest' } = .next { t with inputs := rest' }

/-- With nothing presented the core waits and nothing changes. The form of it, a step that changes
nothing, is the model's choice (log entry 3). -/
def Obligations.WaitsWithoutInput : Prop :=
  ∀ s : State, s.inputs = [] → step s = .next s

/-- A run of commands ends with no fault recorded exactly when none was recorded before and every word was
legal (rules R27, R164); it always ends, with every word taken. -/
def Obligations.SafeRunIffAllLegal : Prop :=
  ∀ (ws : List CommandWord) (s : State),
    (∃ t, Sys2Proof.core.run ws.length (s.withCommands ws) = .next t ∧ t.inputs = []) ∧
    (SafeRun ws.length (s.withCommands ws) ↔
      s.err = false ∧ ∀ w ∈ ws, legalWord w = true)

/-! ### NOP, key and state (spec/40_key_state.md) -/

/-- Rule R80. -/
def Obligations.NopEffect : Prop :=
  EncodedAs 0x00#8 0 false (fun _ _ => .nop) ∧
  (∀ w : CommandWord, decode w = .command .nop ↔ w = 0x0000000000000000#64) ∧
  (∀ s : State, exec .nop s = .next { s with rsp := legalAnswer s 0#48 })

/-- Rule R81. -/
def Obligations.LdkeyEffect : Prop :=
  EncodedAs 0x10#8 48 false (fun _ arg => .ldkey arg) ∧
  (∀ (key : BitVec 48) (s : State), ∃ o ev,
    exec (.ldkey key) s = .next { s with odd := o, even := ev, rsp := legalAnswer s 0#48 } ∧
    (∀ j < 24, o.getLsbD j = key.getLsbD ((2 * j) ^^^ 7) ∧
      ev.getLsbD j = key.getLsbD ((2 * j + 1) ^^^ 7)) ∧
    (∀ m < 6, ∀ n < 8, conceptual o ev (8 * m + n) = key.getLsbD (8 * (5 - m) + n))) ∧
  (∀ s : State,
    exec (.ldkey 0x000000000000#48) s =
      .next { s with odd := 0x000000#24, even := 0x000000#24, rsp := legalAnswer s 0#48 } ∧
    exec (.ldkey 0xFFFFFFFFFFFF#48) s =
      .next { s with odd := 0xFFFFFF#24, even := 0xFFFFFF#24, rsp := legalAnswer s 0#48 } ∧
    exec (.ldkey 0xAAAAAAAAAAAA#48) s =
      .next { s with odd := 0xFFFFFF#24, even := 0x000000#24, rsp := legalAnswer s 0#48 } ∧
    exec (.ldkey 0x555555555555#48) s =
      .next { s with odd := 0x000000#24, even := 0xFFFFFF#24, rsp := legalAnswer s 0#48 } ∧
    exec (.ldkey 0xA0A1A2A3A4A5#48) s =
      .next { s with odd := 0x33BB33#24, even := 0x08084C#24, rsp := legalAnswer s 0#48 }) ∧
  (∀ (o ev : BitVec 24) (s : State), ∃! key : BitVec 48,
    exec (.ldkey key) s = .next { s with odd := o, even := ev, rsp := legalAnswer s 0#48 })

/-- Rule R82. -/
def Obligations.RdkeyEffect : Prop :=
  EncodedAs 0x11#8 0 false (fun _ _ => .rdkey) ∧
  (∀ s : State, ∃ q, exec .rdkey s = .next { s with rsp := legalAnswer s q } ∧
    ∀ i < 24, q.getLsbD (2 * i + 1) = s.odd.getLsbD (i ^^^ 3) ∧
      q.getLsbD (2 * i) = s.even.getLsbD (i ^^^ 3)) ∧
  (∀ s : State, exec .rdkey (exampleKeyState s) =
    .next { exampleKeyState s with rsp := legalAnswer s 0xA0A1A2A3A4A5#48 }) ∧
  (∀ (key : BitVec 48) (s : State), ∃ t, exec (.ldkey key) s = .next t ∧
    exec .rdkey t = .next { t with rsp := legalAnswer s key })

/-- Rules R83 and R84. -/
def Obligations.LdstRdstEffect : Prop :=
  EncodedAs 0x12#8 48 false
    (fun _ arg => .ldst (arg.extractLsb' 24 24) (arg.extractLsb' 0 24)) ∧
  EncodedAs 0x13#8 0 false (fun _ _ => .rdst) ∧
  (∀ (odd even : BitVec 24) (s : State), exec (.ldst odd even) s =
    .next { s with odd := odd, even := even, rsp := legalAnswer s 0#48 }) ∧
  (∀ s : State, ∃ q, exec .rdst s = .next { s with rsp := legalAnswer s q } ∧
    ∀ j < 24, q.getLsbD (24 + j) = s.odd.getLsbD j ∧ q.getLsbD j = s.even.getLsbD j) ∧
  (∀ s : State, ∃ t, exec (.ldst 0x33BB33#24 0x08084C#24) s = .next t ∧
    exec .rdkey t = .next { t with rsp := legalAnswer s 0xA0A1A2A3A4A5#48 }) ∧
  (∀ s : State, ∃ t, exec (.ldkey 0xA0A1A2A3A4A5#48) s = .next t ∧
    exec .rdst t = .next { t with rsp := legalAnswer s 0x33BB3308084C#48 })

/-- Rule R85: pack and unpack are inverse, both ways round. -/
def Obligations.PackUnpackInverse : Prop :=
  (∀ (key : BitVec 48) (s : State), ∃ t, exec (.ldkey key) s = .next t ∧
    exec .rdkey t = .next { t with rsp := legalAnswer t key }) ∧
  (∀ s : State, ∃ key t u, exec .rdkey s = .next t ∧ t.rsp = legalAnswer s key ∧
    exec (.ldkey key) t = .next u ∧ u.odd = s.odd ∧ u.even = s.even)

/-- Rule R86: `LDST` and `RDST` are inverse, and `RDKEY` is `RDST` under a fixed permutation. -/
def Obligations.RawAccessInverse : Prop :=
  (∀ (v : BitVec 48) (s : State), ∃ t,
    exec (.ldst (v.extractLsb' 24 24) (v.extractLsb' 0 24)) s = .next t ∧
    exec .rdst t = .next { t with rsp := legalAnswer t v }) ∧
  (∀ s : State, ∃ raw t u, exec .rdst s = .next t ∧ t.rsp = legalAnswer s raw ∧
    exec (.ldst (raw.extractLsb' 24 24) (raw.extractLsb' 0 24)) t = .next u ∧
    u.odd = s.odd ∧ u.even = s.even) ∧
  (∀ s : State, ∃ key raw, exec .rdkey s = .next { s with rsp := legalAnswer s key } ∧
    exec .rdst s = .next { s with rsp := legalAnswer s raw } ∧
    ∀ i < 24, key.getLsbD (2 * i + 1) = raw.getLsbD (24 + (i ^^^ 3)) ∧
      key.getLsbD (2 * i) = raw.getLsbD (i ^^^ 3))

/-! ### Filter and parity (spec/41_filter_parity.md) -/

/-- Rule R91: the filter by its listed entries and in the shift-and-mask form, for all 2^20 windows; the
keystream bit of a state is the filter of `ODD[19:0]`, whatever `ODD[23:20]` and `EVEN` are, and `FILT` on a
copy of `ODD` gives it (rule R185). -/
def Obligations.FilterTables : Prop :=
  (∀ x : BitVec 20, (filter20 x).toNat = filterEntries x ∧
    (filter20 x).toNat = filterShiftMask x) ∧
  (∀ (e : Bool) (inp : BitVec 1) (s : State), ∃ t, exec (.stbit e inp) s = .next t ∧
    t.rsp = legalAnswer s (bitResult (filter20 (s.odd.setWidth 20))) ∧
    exec (.filt s.odd) s = .next { s with rsp := t.rsp })

/-- Rule R93. -/
def Obligations.FiltEffect : Prop :=
  EncodedAs 0x30#8 24 false (fun _ arg => .filt (arg.setWidth 24)) ∧
  (∀ (x : BitVec 24) (s : State), ∃ q, exec (.filt x) s = .next { s with rsp := legalAnswer s q } ∧
    q.toNat = filterShiftMask (x.setWidth 20)) ∧
  (∀ s : State,
    exec (.filt 0x000000#24) s = .next { s with rsp := legalAnswer s 0#48 } ∧
    exec (.filt 0x0FFFFF#24) s = .next { s with rsp := legalAnswer s 1#48 } ∧
    exec (.filt 0xF00000#24) s = .next { s with rsp := legalAnswer s 0#48 } ∧
    exec (.filt 0x012345#24) s = .next { s with rsp := legalAnswer s 1#48 }) ∧
  decode 0x3000000001000000#64 = .illegal .operandRange

/-- Rules R92 and R94: the parity is 1 exactly when the number of one bits is odd; it is linear; a 24-bit
argument is zero-extended. -/
def Obligations.ParEffect : Prop :=
  EncodedAs 0x31#8 32 false (fun _ arg => .par (arg.setWidth 32)) ∧
  (∀ (x : BitVec 32) (s : State), exec (.par x) s = .next { s with
    rsp := legalAnswer s (BitVec.ofNat 48
      (((List.range 32).filter fun i => x.getLsbD i).length % 2)) }) ∧
  (∀ a b : BitVec 32, parity32 (a ^^^ b) = (parity32 a ^^ parity32 b)) ∧
  (∀ x : BitVec 24, parity24 x = parity32 (x.setWidth 32)) ∧
  (∀ s : State,
    exec (.par 0x00000000#32) s = .next { s with rsp := legalAnswer s 0#48 } ∧
    exec (.par 0xFFFFFFFF#32) s = .next { s with rsp := legalAnswer s 0#48 } ∧
    exec (.par 0x80000000#32) s = .next { s with rsp := legalAnswer s 1#48 } ∧
    exec (.par 0x7FFFFFFF#32) s = .next { s with rsp := legalAnswer s 1#48 })

/-- Rules R95 and R96: the source's nine filter vectors and five parity vectors. -/
def Obligations.FilterAndParityVectors : Prop :=
  ∀ s : State,
    exec (.filt 0x0#24) s = .next { s with rsp := legalAnswer s 0#48 } ∧
    exec (.filt 0x1#24) s = .next { s with rsp := legalAnswer s 0#48 } ∧
    exec (.filt 0x2#24) s = .next { s with rsp := legalAnswer s 1#48 } ∧
    exec (.filt 0x3#24) s = .next { s with rsp := legalAnswer s 1#48 } ∧
    exec (.filt 0x5#24) s = .next { s with rsp := legalAnswer s 1#48 } ∧
    exec (.filt 0x8#24) s = .next { s with rsp := legalAnswer s 0#48 } ∧
    exec (.filt 0xFFFFF#24) s = .next { s with rsp := legalAnswer s 1#48 } ∧
    exec (.filt 0x12345#24) s = .next { s with rsp := legalAnswer s 1#48 } ∧
    exec (.filt 0xABCDE#24) s = .next { s with rsp := legalAnswer s 1#48 } ∧
    exec (.par 0x0#32) s = .next { s with rsp := legalAnswer s 0#48 } ∧
    exec (.par 0x1#32) s = .next { s with rsp := legalAnswer s 1#48 } ∧
    exec (.par 0xFF#32) s = .next { s with rsp := legalAnswer s 0#48 } ∧
    exec (.par 0x80#32) s = .next { s with rsp := legalAnswer s 1#48 } ∧
    exec (.par 0x7FFFFFFF#32) s = .next { s with rsp := legalAnswer s 1#48 }

/-! ### Forward stepping (spec/42_forward_step.md) -/

/-- Rules R100, R101, R102: one forward step, bit by bit, with the feedback taps of rule R90. -/
def Obligations.StbitEffect : Prop :=
  EncodedAs 0x20#8 1 true (fun e arg => .stbit e (arg.setWidth 1)) ∧
  (∀ (e : Bool) (inp : BitVec 1) (s : State), ∃ o,
    exec (.stbit e inp) s = .next { s with
      odd := o
      even := s.odd
      rsp := legalAnswer s (bitResult (filter20 (s.odd.setWidth 20))) } ∧
    (∀ j < 23, o.getLsbD (j + 1) = s.even.getLsbD j) ∧
    o.getLsbD 0 = (xorAt s.odd oddTaps ^^ xorAt s.even evenTaps ^^ inp.getLsbD 0
      ^^ (e && filter20 (s.odd.setWidth 20)))) ∧
  (∀ s : State,
    exec (.stbit false 0#1) { s with odd := 0x000000#24, even := 0x000000#24 } =
      .next { s with odd := 0x000000#24, even := 0x000000#24, rsp := legalAnswer s 0#48 } ∧
    exec (.stbit false 1#1) { s with odd := 0x000000#24, even := 0x000000#24 } =
      .next { s with odd := 0x000001#24, even := 0x000000#24, rsp := legalAnswer s 0#48 } ∧
    exec (.stbit false 0#1) { s with odd := 0xFFFFFF#24, even := 0xFFFFFF#24 } =
      .next { s with odd := 0xFFFFFE#24, even := 0xFFFFFF#24, rsp := legalAnswer s 1#48 } ∧
    exec (.stbit false 0#1) (exampleKeyState s) =
      .next { s with odd := 0x101098#24, even := 0x33BB33#24, rsp := legalAnswer s 0#48 }) ∧
  (∀ (inp : BitVec 1) (s : State), filter20 (s.odd.setWidth 20) = false →
    exec (.stbit true inp) s = exec (.stbit false inp) s)

/-- Rule R103: eight single steps, least significant bit first for the input and for the result. -/
def Obligations.StbyteEffect : Prop :=
  EncodedAs 0x21#8 8 true (fun e arg => .stbyte e (arg.setWidth 8)) ∧
  (∀ (e : Bool) (inp : BitVec 8) (s : State), ∃ (c : Nat → Cipher) (q : BitVec 8),
    c 0 = ⟨s.odd, s.even⟩ ∧
    (∀ i < 8, step1 (c i) (inp.getLsbD i) e = (q.getLsbD i, c (i + 1))) ∧
    exec (.stbyte e inp) s = .next { s with
      odd := (c 8).odd, even := (c 8).even, rsp := legalAnswer s (q.setWidth 48) }) ∧
  (∀ (inp : BitVec 8) (s : State), ∃ q q' t t',
    exec (.stbyte false inp) s = .next t ∧ t.rsp = legalAnswer s q ∧
    exec (.stbyte true inp) s = .next t' ∧ t'.rsp = legalAnswer s q' ∧
    q.getLsbD 0 = q'.getLsbD 0) ∧
  (∀ s : State,
    exec (.stbyte false 0#8) { s with odd := 0x000000#24, even := 0x000000#24 } =
      .next { s with odd := 0x000000#24, even := 0x000000#24, rsp := legalAnswer s 0#48 } ∧
    exec (.stbyte false 0#8) (exampleKeyState s) =
      .next { s with odd := 0x3BB339#24, even := 0x8084C4#24, rsp := legalAnswer s 0x70#48 } ∧
    exec .rdkey { s with odd := 0x3BB339#24, even := 0x8084C4#24 } =
      .next { s with
        odd := 0x3BB339#24, even := 0x8084C4#24, rsp := legalAnswer s 0xA1A2A3A4A586#48 })

/-- Rule R104: thirty-two single steps, at positions `k = i ^ 24`; the old low two key bytes become the
top two. -/
def Obligations.StwordEffect : Prop :=
  EncodedAs 0x22#8 32 true (fun e arg => .stword e (arg.setWidth 32)) ∧
  (∀ (e : Bool) (inp : BitVec 32) (s : State), ∃ (c : Nat → Cipher) (q : BitVec 32),
    c 0 = ⟨s.odd, s.even⟩ ∧
    (∀ i < 32, step1 (c i) (inp.getLsbD (i ^^^ 24)) e = (q.getLsbD (i ^^^ 24), c (i + 1))) ∧
    exec (.stword e inp) s = .next { s with
      odd := (c 32).odd, even := (c 32).even, rsp := legalAnswer s (q.setWidth 48) }) ∧
  (∀ (e : Bool) (inp : BitVec 32) (s : State), ∃ key key' t u,
    exec .rdkey s = .next { s with rsp := legalAnswer s key } ∧
    exec (.stword e inp) s = .next t ∧ exec .rdkey t = .next u ∧ u.rsp = legalAnswer s key' ∧
    key'.extractLsb' 32 16 = key.extractLsb' 0 16) ∧
  (∀ s : State,
    exec (.stword false 0#32) { s with odd := 0x000000#24, even := 0x000000#24 } =
      .next { s with odd := 0x000000#24, even := 0x000000#24, rsp := legalAnswer s 0#48 } ∧
    exec (.stword false 0x12345678#32) (exampleKeyState s) =
      .next { s with odd := 0x33064F#24, even := 0x4C7137#24, rsp := legalAnswer s 0x30794609#48 } ∧
    exec .rdkey { s with odd := 0x33064F#24, even := 0x4C7137#24 } =
      .next { s with
        odd := 0x33064F#24, even := 0x4C7137#24, rsp := legalAnswer s 0xA4A5546858FE#48 })

/-- Rule R105: a single step's result does not depend on `E`; the new states differ exactly when that
result is 1. For a byte and a word, the spec's examples. -/
def Obligations.KeystreamBitIgnoresE : Prop :=
  (∀ (inp : BitVec 1) (s : State), ∃ q t t',
    exec (.stbit false inp) s = .next t ∧ exec (.stbit true inp) s = .next t' ∧
    t.rsp = legalAnswer s q ∧ t'.rsp = legalAnswer s q ∧ (t ≠ t' ↔ q = 1#48)) ∧
  (∀ s : State, ∃ t t',
    exec (.stword false 0#32) (exampleKeyState s) = .next t ∧
    exec (.stword true 0#32) (exampleKeyState s) = .next t' ∧
    t.rsp = legalAnswer s 0x70FDEA9D#48 ∧ t'.rsp = legalAnswer s 0x7039CB0B#48) ∧
  (∀ s : State, ∃ t t',
    exec (.stbyte false 0#8) (exampleKeyState s) = .next t ∧
    exec (.stbyte true 0#8) (exampleKeyState s) = .next t' ∧
    t.rsp = legalAnswer s 0x70#48 ∧ t'.rsp = legalAnswer s 0x70#48) ∧
  (issueAll (List.replicate 5 (.stbit false 0#1)) (exampleKeyState State.reset)).map (·.2.odd) =
    some 0x404262#24 ∧
  (issueAll (List.replicate 5 (.stbit true 0#1)) (exampleKeyState State.reset)).map (·.2.odd) =
    some 0x404263#24

/-- Rule R106: a byte is its eight bits, a word its four bytes, most significant first, in state and
result. -/
def Obligations.ForwardComposition : Prop :=
  (∀ (e : Bool) (b : BitVec 8) (s : State), ∃ (q : BitVec 8) (t : State) (r : Option (BitVec 64)),
    exec (.stbyte e b) s = .next t ∧ t.rsp = legalAnswer s (q.setWidth 48) ∧
    issueAll ((List.range 8).map fun i => .stbit e (b.extractLsb' i 1)) s =
      some ((List.range 8).map fun i => bitResult (q.getLsbD i), { t with rsp := r })) ∧
  (∀ (e : Bool) (w : BitVec 32) (s : State), ∃ (q : BitVec 32) (t : State) (r : Option (BitVec 64)),
    exec (.stword e w) s = .next t ∧ t.rsp = legalAnswer s (q.setWidth 48) ∧
    issueAll ([24, 16, 8, 0].map fun k => .stbyte e (w.extractLsb' k 8)) s =
      some ([24, 16, 8, 0].map fun k => (q.extractLsb' k 8).setWidth 48, { t with rsp := r })) ∧
  (issueAll [.ldkey 0xA0A1A2A3A4A5#48, .stbyte false 0x12#8, .stbyte false 0x34#8,
      .stbyte false 0x56#8, .stbyte false 0x78#8] State.reset).map
      (fun p => (p.1, p.2.odd, p.2.even)) =
    some ([0#48, 0x30#48, 0x79#48, 0x46#48, 0x09#48], 0x33064F#24, 0x4C7137#24)

/-- Rule R107: encrypted feedback of `c` is plain feedback of `c` decrypted, for a bit, a byte and a word:
the side that holds the encrypted data and the side that holds the plain data stay in step. -/
def Obligations.EncryptedFeedbackLockstep : Prop :=
  (∀ (c : BitVec 1) (s : State), ∃ (ks : BitVec 1) (t : State),
    exec (.stbit true c) s = .next t ∧ t.rsp = legalAnswer s (ks.setWidth 48) ∧
    exec (.stbit false (c ^^^ ks)) s = .next t) ∧
  (∀ (c : BitVec 8) (s : State), ∃ (ks : BitVec 8) (t : State),
    exec (.stbyte true c) s = .next t ∧ t.rsp = legalAnswer s (ks.setWidth 48) ∧
    exec (.stbyte false (c ^^^ ks)) s = .next t) ∧
  (∀ (c : BitVec 32) (s : State), ∃ (ks : BitVec 32) (t : State),
    exec (.stword true c) s = .next t ∧ t.rsp = legalAnswer s (ks.setWidth 48) ∧
    exec (.stword false (c ^^^ ks)) s = .next t)

/-- Rule R108: the source's byte vector, in both modes. -/
def Obligations.SourceByteVector : Prop :=
  ∀ s : State, ∃ t t',
    exec (.stbyte false 0x00#8) (exampleKeyState s) = .next t ∧
    t.rsp = legalAnswer s 0x70#48 ∧
    exec .rdkey t = .next { t with rsp := legalAnswer s 0xA1A2A3A4A586#48 } ∧
    exec (.stbyte true 0x00#8) (exampleKeyState s) = .next t' ∧
    t'.rsp = legalAnswer s 0x70#48 ∧
    exec .rdkey t' = .next { t' with rsp := legalAnswer s 0xA1A2A3A4A5F6#48 }

/-- Rule R23: the two halves are one 48-bit shift register `a[0] .. a[47]`. A forward step moves every bit
one place down, drops `a[0]` and enters the feedback at `a[47]`, from the positions the rule lists. -/
def Obligations.ConceptualShiftRegister : Prop :=
  (∀ (odd even : BitVec 24) (j : Nat), j < 24 →
    conceptual odd even (47 - 2 * j) = odd.getLsbD j ∧
    conceptual odd even (46 - 2 * j) = even.getLsbD j) ∧
  (∀ (e : Bool) (inp : BitVec 1) (s : State), ∃ t, exec (.stbit e inp) s = .next t ∧
    (∀ i < 47, conceptual t.odd t.even i = conceptual s.odd s.even (i + 1)) ∧
    conceptual t.odd t.even 47 =
      (([5, 9, 15, 17, 19, 25, 27, 29, 35, 39, 41, 43] ++ [0, 10, 12, 14, 24, 42]).foldl
        (fun acc i => acc ^^ conceptual s.odd s.even i) false
        ^^ inp.getLsbD 0 ^^ (e && filter20 (s.odd.setWidth 20)))) ∧
  (∀ (odd even : BitVec 24) (n : Nat), n < 20 →
    (odd.setWidth 20).getLsbD n = conceptual odd even (47 - 2 * n))

/-! ### Inverse stepping (spec/43_rollback.md) -/

/-- Rules R110 and R111: one inverse step, bit by bit; it is defined on every state, and for each operand
and flag every state has exactly one predecessor; a different operand or flag changes at most
`EVEN[23]`. -/
def Obligations.RbbitEffect : Prop :=
  EncodedAs 0x28#8 1 true (fun e arg => .rbbit e (arg.setWidth 1)) ∧
  (∀ (e : Bool) (inp : BitVec 1) (s : State), ∃ ev,
    exec (.rbbit e inp) s = .next { s with
      odd := s.even
      even := ev
      rsp := legalAnswer s (bitResult (filter20 (s.even.setWidth 20))) } ∧
    (∀ j < 23, ev.getLsbD j = s.odd.getLsbD (j + 1)) ∧
    ev.getLsbD 23 = (s.odd.getLsbD 0 ^^ xorAt s.odd [3, 12, 17, 18, 19] ^^ xorAt s.even oddTaps
      ^^ inp.getLsbD 0 ^^ (e && filter20 (s.even.setWidth 20)))) ∧
  (∀ (e : Bool) (inp : BitVec 1) (s : State), ∃! c : BitVec 24 × BitVec 24, ∃ r,
    exec (.stbit e inp) { s with odd := c.1, even := c.2 } = .next { s with rsp := r }) ∧
  (∀ (e e' : Bool) (inp inp' : BitVec 1) (s : State), ∃ t t',
    exec (.rbbit e inp) s = .next t ∧ exec (.rbbit e' inp') s = .next t' ∧ t.odd = t'.odd ∧
    (∀ j < 23, t.even.getLsbD j = t'.even.getLsbD j) ∧
    (t.even.getLsbD 23 = t'.even.getLsbD 23 ↔
      (inp.getLsbD 0 ^^ (e && filter20 (s.even.setWidth 20))) =
        (inp'.getLsbD 0 ^^ (e' && filter20 (s.even.setWidth 20))))) ∧
  (∀ s : State,
    exec (.rbbit false 0#1) { s with odd := 0x000000#24, even := 0x000000#24 } =
      .next { s with odd := 0x000000#24, even := 0x000000#24, rsp := legalAnswer s 0#48 } ∧
    exec (.rbbit false 1#1) { s with odd := 0x000000#24, even := 0x000000#24 } =
      .next { s with odd := 0x000000#24, even := 0x800000#24, rsp := legalAnswer s 0#48 } ∧
    exec (.rbbit false 0#1) { s with odd := 0x101098#24, even := 0x33BB33#24 } =
      .next { s with odd := 0x33BB33#24, even := 0x08084C#24, rsp := legalAnswer s 0#48 })

/-- Rule R112: eight inverse steps, bit 7 first, each result bit at the position of its input bit. -/
def Obligations.RbbyteEffect : Prop :=
  EncodedAs 0x29#8 8 true (fun e arg => .rbbyte e (arg.setWidth 8)) ∧
  (∀ (e : Bool) (inp : BitVec 8) (s : State), ∃ (c : Nat → Cipher) (q : BitVec 8),
    c 8 = ⟨s.odd, s.even⟩ ∧
    (∀ i < 8, unstep1 (c (i + 1)) (inp.getLsbD i) e = (q.getLsbD i, c i)) ∧
    exec (.rbbyte e inp) s = .next { s with
      odd := (c 0).odd, even := (c 0).even, rsp := legalAnswer s (q.setWidth 48) }) ∧
  (∀ s : State,
    exec (.rbbyte false 0x00#8) { s with odd := 0x3BB339#24, even := 0x8084C4#24 } =
      .next { s with odd := 0x33BB33#24, even := 0x08084C#24, rsp := legalAnswer s 0x70#48 })

/-- Rule R113: thirty-two inverse steps, the exact reverse of the order of `STWORD`. -/
def Obligations.RbwordEffect : Prop :=
  EncodedAs 0x2A#8 32 true (fun e arg => .rbword e (arg.setWidth 32)) ∧
  (∀ (e : Bool) (inp : BitVec 32) (s : State), ∃ (c : Nat → Cipher) (q : BitVec 32),
    c 32 = ⟨s.odd, s.even⟩ ∧
    (∀ i < 32, unstep1 (c (i + 1)) (inp.getLsbD (i ^^^ 24)) e = (q.getLsbD (i ^^^ 24), c i)) ∧
    exec (.rbword e inp) s = .next { s with
      odd := (c 0).odd, even := (c 0).even, rsp := legalAnswer s (q.setWidth 48) }) ∧
  (∀ s : State, ∃ t,
    exec (.rbword false 0x1EFD8D5E#32) { s with odd := 0xFFFD66#24, even := 0xFF7FAE#24 } =
      .next t ∧
    t = { s with odd := 0xFFFFFF#24, even := 0xFFFFFF#24, rsp := legalAnswer s 0xFF77FF5A#48 } ∧
    exec .rdkey t = .next { t with rsp := legalAnswer s 0xFFFFFFFFFFFF#48 })

/-- Rule R114: forward, then back with the same operand and flag: the state is restored and the rollback
returns what the forward command returned. -/
def Obligations.RollbackUndoesForward : Prop :=
  (∀ (e : Bool) (x : BitVec 1) (s : State), ∃ t, exec (.stbit e x) s = .next t ∧
    exec (.rbbit e x) t = .next { s with rsp := t.rsp }) ∧
  (∀ (e : Bool) (x : BitVec 8) (s : State), ∃ t, exec (.stbyte e x) s = .next t ∧
    exec (.rbbyte e x) t = .next { s with rsp := t.rsp }) ∧
  (∀ (e : Bool) (x : BitVec 32) (s : State), ∃ t, exec (.stword e x) s = .next t ∧
    exec (.rbword e x) t = .next { s with rsp := t.rsp })

/-- Rule R115: back, then forward. -/
def Obligations.ForwardUndoesRollback : Prop :=
  (∀ (e : Bool) (x : BitVec 1) (s : State), ∃ t, exec (.rbbit e x) s = .next t ∧
    exec (.stbit e x) t = .next { s with rsp := t.rsp }) ∧
  (∀ (e : Bool) (x : BitVec 8) (s : State), ∃ t, exec (.rbbyte e x) s = .next t ∧
    exec (.stbyte e x) t = .next { s with rsp := t.rsp }) ∧
  (∀ (e : Bool) (x : BitVec 32) (s : State), ∃ t, exec (.rbword e x) s = .next t ∧
    exec (.stword e x) t = .next { s with rsp := t.rsp })

/-- Rule R116: the composition of rollbacks, and that any sequence of forward commands is undone by the
mirrored rollback commands in reverse order. -/
def Obligations.RollbackComposition : Prop :=
  (∀ (e : Bool) (b : BitVec 8) (s : State), ∃ (q : BitVec 8) (t : State) (r : Option (BitVec 64)),
    exec (.rbbyte e b) s = .next t ∧ t.rsp = legalAnswer s (q.setWidth 48) ∧
    issueAll ([7, 6, 5, 4, 3, 2, 1, 0].map fun i => .rbbit e (b.extractLsb' i 1)) s =
      some ([7, 6, 5, 4, 3, 2, 1, 0].map fun i => bitResult (q.getLsbD i), { t with rsp := r })) ∧
  (∀ (e : Bool) (w : BitVec 32) (s : State), ∃ (q : BitVec 32) (t : State) (r : Option (BitVec 64)),
    exec (.rbword e w) s = .next t ∧ t.rsp = legalAnswer s (q.setWidth 48) ∧
    issueAll ([0, 8, 16, 24].map fun k => .rbbyte e (w.extractLsb' k 8)) s =
      some ([0, 8, 16, 24].map fun k => (q.extractLsb' k 8).setWidth 48, { t with rsp := r })) ∧
  (∀ (l : List Instr) (s : State), (∀ i ∈ l, isForward i = true) →
    ∃ (qs : List (BitVec 48)) (t : State) (r : Option (BitVec 64)),
      issueAll l s = some (qs, t) ∧
      issueAll (l.map undo).reverse t = some (qs.reverse, { s with rsp := r }))

/-! ### Byte swap and nonce PRNG (spec/44_prng_swap.md) -/

/-- Rules R120 and R121. -/
def Obligations.SwapEffect : Prop :=
  EncodedAs 0x32#8 32 false (fun _ arg => .swap (arg.setWidth 32)) ∧
  (∀ (x : BitVec 32) (s : State), ∃ y : BitVec 32,
    exec (.swap x) s = .next { s with rsp := legalAnswer s (y.setWidth 48) } ∧
    y.extractLsb' 0 8 = x.extractLsb' 24 8 ∧ y.extractLsb' 8 8 = x.extractLsb' 16 8 ∧
    y.extractLsb' 16 8 = x.extractLsb' 8 8 ∧ y.extractLsb' 24 8 = x.extractLsb' 0 8 ∧
    exec (.swap y) s = .next { s with rsp := legalAnswer s (x.setWidth 48) }) ∧
  (∀ s : State,
    exec (.swap 0x00000000#32) s = .next { s with rsp := legalAnswer s 0#48 } ∧
    exec (.swap 0x12343412#32) s = .next { s with rsp := legalAnswer s 0x12343412#48 } ∧
    exec (.swap 0x12345678#32) s = .next { s with rsp := legalAnswer s 0x78563412#48 })

/-- Rule R123. -/
def Obligations.PrldEffect : Prop :=
  EncodedAs 0x40#8 32 false (fun _ arg => .prld (arg.setWidth 32)) ∧
  (∀ (n : BitVec 32) (s : State),
    exec (.prld n) s = .next { s with pr := n, rsp := legalAnswer s 0#48 })

/-- Rules R122 and R124: the nonce as the bit sequence `s[i]`, which is bit `i ^ 24` of the word; each of the
`k` iterations drops `s[0]`, moves every bit one place down and appends the XOR of four; the result is the
new `PR`. -/
def Obligations.PrstepEffect : Prop :=
  EncodedAs 0x41#8 32 false (fun _ arg => .prstep (arg.setWidth 32)) ∧
  (∀ (k : BitVec 32) (s : State), ∃ x : Nat → BitVec 32, x 0 = s.pr ∧
    (∀ n, x n = suc s.pr n ∧
      (∀ i < 31, (x (n + 1)).getLsbD (i ^^^ 24) = (x n).getLsbD ((i + 1) ^^^ 24)) ∧
      (x (n + 1)).getLsbD (31 ^^^ 24) = xorAt (x n) [16 ^^^ 24, 18 ^^^ 24, 19 ^^^ 24, 21 ^^^ 24]) ∧
    exec (.prstep k) s = .next { s with
      pr := x k.toNat, rsp := legalAnswer s ((x k.toNat).setWidth 48) }) ∧
  (∀ s : State, exec (.prstep 0#32) s =
    .next { s with rsp := legalAnswer s (s.pr.setWidth 48) }) ∧
  (∀ (k : BitVec 32) (s : State), exec (.prstep k) { s with pr := 0x00000000#32 } =
    .next { s with pr := 0x00000000#32, rsp := legalAnswer s 0#48 }) ∧
  (∀ s : State, exec (.prstep 32#32) { s with pr := 0x12345678#32 } =
    .next { s with pr := 0x8B92EC40#32, rsp := legalAnswer s 0x8B92EC40#48 })

/-- Rule R125: additivity, of the function and of two commands. -/
def Obligations.PrngAdditivity : Prop :=
  (∀ (x : BitVec 32) (a b : Nat), suc (suc x a) b = suc x (a + b)) ∧
  (∀ (a b : BitVec 32) (s : State), a.toNat + b.toNat < 2 ^ 32 → ∃ t u,
    exec (.prstep a) s = .next t ∧ exec (.prstep b) t = .next u ∧
    exec (.prstep (a + b)) s = .next u)

/-- Rule R126: from the sixteenth iteration on the sequence has period 65535, and no smaller one unless its
last sixteen bits `s[16..31]` (bits 15:0 of the word) are all zero, where it is 0; a count reduces to
`16 + ((k - 16) mod 65535)` from 16 on only. -/
def Obligations.PrngPeriod : Prop :=
  (∀ (x : BitVec 32) (k d : Nat), 16 ≤ k → x.extractLsb' 0 16 ≠ 0#16 →
    (suc x (k + d) = suc x k ↔ 65535 ∣ d)) ∧
  (∀ (x : BitVec 32) (k : Nat), 16 ≤ k → x.extractLsb' 0 16 = 0#16 → suc x k = 0#32) ∧
  (∀ (k : BitVec 32) (s : State), 16 ≤ k.toNat →
    exec (.prstep k) s = exec (.prstep (BitVec.ofNat 32 (16 + (k.toNat - 16) % 65535))) s) ∧
  (∀ s : State,
    (∃ t, exec (.prstep 65567#32) { s with pr := 0x01020304#32 } = .next t ∧
      t.pr = 0xA3BD92D0#32) ∧
    (∃ t, exec (.prstep 32#32) { s with pr := 0x01020304#32 } = .next t ∧ t.pr = 0xA3BD92D0#32) ∧
    (∃ t, exec (.prstep 65535#32) { s with pr := 0x01020304#32 } = .next t ∧ t.pr = 0xD38B0304#32))

/-- Rules R127 and R145: the source's PRNG vectors, and `PRNGSUCC n, k` as the source's function. -/
def Obligations.PrngVectors : Prop :=
  suc 0x12345678#32 32 = 0x8B92EC40#32 ∧ suc 0xDEADBEEF#32 96 = 0xE63E7417#32 ∧
  (∀ n : BitVec 32, suc n 0 = n) ∧
  suc 0x12345678#32 64 = 0xCDD2B112#32 ∧ suc 0x8B92EC40#32 32 = 0xCDD2B112#32 ∧
  suc 0xDEADBEEF#32 64 = 0x40BF8252#32 ∧
  (∀ (n k : BitVec 32) (s : State), ∃ t, prngsucc n k s = some (suc n k.toNat, t) ∧
    t.pr = suc n k.toNat ∧ t.odd = s.odd ∧ t.even = s.even ∧ t.crc = s.crc ∧ t.err = s.err) ∧
  (∀ s : State, (prngsucc 0x12345678#32 32#32 s).map (·.1) = some 0x8B92EC40#32)

/-! ### CRC_A (spec/45_crc_a.md) -/

/-- Rules R132 and R134: `CRCINIT` and `CRCRD`, with the example of rule R134. -/
def Obligations.CrcinitCrcrdEffect : Prop :=
  EncodedAs 0x50#8 0 false (fun _ _ => .crcinit) ∧
  EncodedAs 0x52#8 0 false (fun _ _ => .crcrd) ∧
  (∀ s : State, exec .crcinit s = .next { s with crc := 0x6363#16, rsp := legalAnswer s 0#48 }) ∧
  (∀ s : State, ∃ q, exec .crcrd s = .next { s with rsp := legalAnswer s q } ∧
    q.toNat = s.crc.toNat) ∧
  State.reset.crc = 0x6363#16 ∧
  (∀ s : State, (issueAll [.crcinit, .crcrd] s).map (·.1) = some [0#48, 0x6363#48]) ∧
  (∀ s : State, (issueAll [.crcinit, .crcbyte 0x60#8, .crcbyte 0x00#8, .crcrd] s).map (·.1) =
    some [0#48, 0#48, 0#48, 0x7BF5#48])

/-- Rules R131, R133, R137: the byte step on numbers, and its bit-serial form with `0x8408`. -/
def Obligations.CrcbyteEffect : Prop :=
  EncodedAs 0x51#8 8 false (fun _ arg => .crcbyte (arg.setWidth 8)) ∧
  (∀ (b : BitVec 8) (s : State), ∃ c : BitVec 16,
    exec (.crcbyte b) s = .next { s with crc := c, rsp := legalAnswer s 0#48 } ∧
    c.toNat = crcByteNumbers s.crc.toNat b.toNat ∧ c = crcBitSerial b 0 8 s.crc) ∧
  (∀ s : State, exec (.crcbyte (s.crc.extractLsb' 0 8)) s =
    .next { s with crc := s.crc >>> 8, rsp := legalAnswer s 0#48 }) ∧
  (∀ s : State,
    exec (.crcbyte 0x60#8) { s with crc := 0x6363#16 } =
      .next { s with crc := 0x32F8#16, rsp := legalAnswer s 0#48 } ∧
    exec (.crcbyte 0x00#8) { s with crc := 0x32F8#16 } =
      .next { s with crc := 0x7BF5#16, rsp := legalAnswer s 0#48 })

/-- Rule R135: the verifier; a mismatch is a result, no exception, and changes no register. -/
def Obligations.CrcchkEffect : Prop :=
  EncodedAs 0x53#8 16 false (fun _ arg => .crcchk (arg.setWidth 16)) ∧
  (∀ (lo hi : BitVec 8) (s : State),
    exec (.crcchk (hi ++ lo)) s = .next { s with
      rsp := legalAnswer s (if s.crc.extractLsb' 0 8 = lo ∧ s.crc.extractLsb' 8 8 = hi
        then 1#48 else 0#48) }) ∧
  (∀ s : State,
    exec (.crcchk 0x7BF5#16) { s with crc := 0x7BF5#16 } =
      .next { s with crc := 0x7BF5#16, rsp := legalAnswer s 1#48 } ∧
    exec (.crcchk 0x7BF4#16) { s with crc := 0x7BF5#16 } =
      .next { s with crc := 0x7BF5#16, rsp := legalAnswer s 0#48 })

/-- Rule R136: a message followed by its own two CRC bytes in wire order leaves the register zero, for
every message; so `CRCINIT`, `CRCBYTE` for every byte, `CRCRD` answers 0. -/
def Obligations.CrcResidue : Prop :=
  (∀ bytes : List (BitVec 8),
    crcA (bytes ++ [(crcA bytes).extractLsb' 0 8, (crcA bytes).extractLsb' 8 8]) = 0x0000#16) ∧
  (∀ (bytes : List (BitVec 8)) (s : State), ∃ c t u,
    crca bytes s = some (c, t) ∧ crca (bytes ++ crcWire c) s = some (0x0000#16, u)) ∧
  crcStep 0x7BF5#16 0xF5#8 = 0x007B#16 ∧ crcStep 0x007B#16 0x7B#8 = 0x0000#16

/-- Rules R130, R139, R146 and R155: the CRC of a message fed byte by byte, and the spec's values and
frames. -/
def Obligations.CrcVectorsAndFrames : Prop :=
  (∀ (bytes : List (BitVec 8)) (s : State), ∃ t, crca bytes s = some (crcA bytes, t) ∧
    t.crc = crcA bytes ∧ t.odd = s.odd ∧ t.even = s.even ∧ t.pr = s.pr ∧ t.err = s.err) ∧
  crcA [] = 0x6363#16 ∧
  (∀ (bytes : List (BitVec 8)) (b : BitVec 8), crcA (bytes ++ [b]) = crcStep (crcA bytes) b) ∧
  crcA [0x60#8, 0x00#8] = 0x7BF5#16 ∧
  crcA [0x00#8, 0x00#8] = 0x1EA0#16 ∧ crcA [0x12#8, 0x34#8] = 0xCF26#16 ∧
  (∀ (k b : BitVec 8) (s : State), ∃ c t, crca [k, b] s = some (c, t) ∧
    authframe k b s = some ([k, b, c.extractLsb' 0 8, c.extractLsb' 8 8], t)) ∧
  (∀ (b : BitVec 8) (s : State), ∃ c t, crca [0x30#8, b] s = some (c, t) ∧
    readframe b s = some ([0x30#8, b, c.extractLsb' 0 8, c.extractLsb' 8 8], t)) ∧
  (authframe keyTypeA 0x00#8 State.reset).map (·.1) = some [0x60#8, 0x00#8, 0xF5#8, 0x7B#8] ∧
  (authframe keyTypeB 0x00#8 State.reset).map (·.1) = some [0x61#8, 0x00#8, 0x2D#8, 0x62#8] ∧
  (readframe 0x00#8 State.reset).map (·.1) = some [0x30#8, 0x00#8, 0x02#8, 0xA8#8] ∧
  (readframe 0x04#8 State.reset).map (·.1) = some [0x30#8, 0x04#8, 0x26#8, 0xEE#8]

/-! ### Command sequences (spec/46_sequences.md) -/

/-- Rules R147 and R152: `KEYFROMSTATE` on the state `INITCIPHER` leaves, with the same `uid ^ nT`, returns
the key; on the spec's example it does. -/
def Obligations.KeyFromStateInvertsInitCipher : Prop :=
  (∀ (key : BitVec 48) (uid nT : BitVec 32) (s s' : State), ∃ t u,
    initcipher key uid nT s = some t ∧
    keyfromstate t.odd t.even (uid ^^^ nT) s' = some (key, u)) ∧
  (∀ s : State, ∃ t, initcipher 0xFFFFFFFFFFFF#48 0x9C599B32#32 0x82A4166C#32 s = some t ∧
    t.odd = 0xFFFD66#24 ∧ t.even = 0xFF7FAE#24) ∧
  (keyfromstate 0xFFFD66#24 0xFF7FAE#24 0x1EFD8D5E#32 State.reset).map (·.1) =
    some 0xFFFFFFFFFFFF#48

/-- Rules R148 and R149: `KSBYTE` and `KSWORD` are the commands `STBYTE 0` and `STWORD 0`; `ENCBYTES` XORs
each byte with the result of one `STBYTE 0` and leaves the state those leave, eight steps on per byte;
it is its own inverse, and the state afterwards depends on the number of bytes and not on the bytes. -/
def Obligations.EncbytesSymmetric : Prop :=
  (∀ s : State, ∃ (ks : BitVec 8) (t : State), exec (.stbyte false 0x00#8) s = .next t ∧
    t.rsp = legalAnswer s (ks.setWidth 48) ∧ ksbyte s = some (ks, t)) ∧
  (∀ s : State, ∃ (ks : BitVec 32) (t : State), exec (.stword false 0x00000000#32) s = .next t ∧
    t.rsp = legalAnswer s (ks.setWidth 48) ∧ ksword s = some (ks, t)) ∧
  (∀ (bytes : List (BitVec 8)) (s : State), ∃ (ks : List (BitVec 8)) (t : State),
    ks.length = bytes.length ∧
    issueAll (List.replicate bytes.length (.stbyte false 0x00#8)) s =
      some (ks.map fun k => k.setWidth 48, t) ∧
    encbytes bytes s = some (bytes.zipWith (fun b k => b ^^^ k) ks, t) ∧
    t.cipher = (fun c => (step1 c false false).2)^[8 * bytes.length] s.cipher) ∧
  (∀ (bytes : List (BitVec 8)) (s : State), ∃ out t,
    encbytes bytes s = some (out, t) ∧ out.length = bytes.length ∧
    encbytes out s = some (bytes, t)) ∧
  (∀ (bytes bytes' : List (BitVec 8)) (s : State), bytes.length = bytes'.length →
    (encbytes bytes s).map (·.2) = (encbytes bytes' s).map (·.2)) ∧
  ((initcipher 0xA0A1A2A3A4A5#48 0x01020304#32 0x12345678#32 State.reset).bind
      (encbytes [0x30#8, 0x04#8])).map (·.1) = some [0x15#8, 0x13#8]

/-- Rules R150, R151, R107: the reader (plain data, two cores' worth of commands on one core) and the card
(encrypted reader nonce fed with `E = 1`, on another core) stay in step; the card recovers `nR` and the
reader's answer `suc(nT, 64)`, and the reader accepts the card's answer `suc(nT, 96)`. -/
def Obligations.AuthenticationSession : Prop :=
  (∀ (key : BitVec 48) (uid nT nR : BitVec 32) (reader card : State),
    ∃ r1 r2 encNR encAR c1 c2 c3 c4 ks1 ks2 ks3,
      initcipher key uid nT reader = some r1 ∧
      readerresp nR nT r1 = some ((encNR, encAR), r2) ∧
      initcipher key uid nT card = some c1 ∧
      issue (.stword true encNR) c1 = some (ks1, c2) ∧ encNR ^^^ ks1.setWidth 32 = nR ∧
      ksword c2 = some (ks2, c3) ∧ encAR ^^^ ks2 = suc nT 64 ∧
      c3.odd = r2.odd ∧ c3.even = r2.even ∧
      ksword c3 = some (ks3, c4) ∧
      (∃ r3, verifycard (suc nT 96 ^^^ ks3) nT r2 = some (true, r3)) ∧
      (∃ r3, verifycardContinued (suc nT 96 ^^^ ks3) r2 = some (true, r3))) ∧
  (∃ r1 r2 r3,
    initcipher 0xFFFFFFFFFFFF#48 0x9C599B32#32 0x82A4166C#32 State.reset = some r1 ∧
    readerresp 0xEFEA1CDA#32 0x82A4166C#32 r1 = some ((0xA1E458CE#32, 0x6EEA41E0#32), r2) ∧
    verifycard 0x5CADF439#32 0x82A4166C#32 r2 = some (true, r3))

/-- Rule R153 (and R53): `CLONE` copies the cipher state from one core to another; the first core's
registers and the second's `PR`, `CRC` and `ERR` are not touched. -/
def Obligations.CloneCopiesCipherState : Prop :=
  ∀ s1 s2 : State, ∃ v t u, cloneSave s1 = some (v, t) ∧ cloneRestore v s2 = some u ∧
    u.odd = s1.odd ∧ u.even = s1.even ∧
    t.odd = s1.odd ∧ t.even = s1.even ∧ t.pr = s1.pr ∧ t.crc = s1.crc ∧ t.err = s1.err ∧
    u.pr = s2.pr ∧ u.crc = s2.crc ∧ u.err = s2.err

/-- Rule R154: a nonce has distance 0 from itself; below the bound `NONCEDIST` answers the least number of
`suc` steps; where there is none it answers the sentinel, on whose value nothing rests (log entry 4). -/
def Obligations.NonceDistanceCounts : Prop :=
  (∀ (n : BitVec 32) (s : State), ∃ t, noncedist n n s = some (0#32, t)) ∧
  (∀ (n : BitVec 32) (k : Nat) (s : State), k < 65536 →
    (∀ j < k, suc n j ≠ suc n k) → ∃ t, noncedist n (suc n k) s = some (BitVec.ofNat 32 k, t)) ∧
  (∀ (n m : BitVec 32) (s : State), (∀ k < 65536, suc n k ≠ m) →
    ∃ t, noncedist n m s = some (Config.nonceDistSentinel, t))
end

