-- ==== Sys2Proof/Laws/Operands.lean ====
section
/-! SUPPORT. Bits of values put together bit by bit, and of the two bit orders. -/

namespace Sys2Proof.Laws

open Sys2Proof.Machine

/-- Bit `i` of `bitsOf w f` is `f i`. -/
theorem getLsbD_bitsOf (w : Nat) (f : Nat → Bool) (i : Nat) :
    (bitsOf w f).getLsbD i = (decide (i < w) && f i) := by
  induction w with
  | zero => simp [bitsOf]
  | succ n ih =>
    rw [bitsOf, BitVec.getLsbD_cons, ih]
    by_cases h : i = n
    · subst h; simp
    · have : (i < n + 1) ↔ i < n := by omega
      simp [h, this]

/-- The bit written reads as written, every other bit as before. -/
theorem getLsbD_writeBit {w : Nat} (v : BitVec w) (k : Nat) (b : Bool) (i : Nat) :
    (writeBit v k b).getLsbD i = if i = k ∧ i < w then b else v.getLsbD i := by
  unfold writeBit
  by_cases hi : i < w
  · by_cases hk : i = k
    · subst hk; cases b <;> simp [hi]
    · cases b <;> simp [hi, hk]
  · have hv : v.getLsbD i = false := BitVec.getLsbD_of_ge v i (by omega)
    cases b
    · simp [hi, hv]
    · simp only [if_true, BitVec.getLsbD_or, hv, BitVec.getLsbD_twoPow, hi, and_false, if_false]
      rw [Bool.false_or]
      simp
      omega

/-- A byte is taken bit 0 first. -/
theorem byteOrder_eq : byteOrder = [0, 1, 2, 3, 4, 5, 6, 7] := by decide

/-- A word is taken byte 31:24 first, bit 0 of each byte first. -/
theorem wordOrder_eq : wordOrder =
    [24, 25, 26, 27, 28, 29, 30, 31, 16, 17, 18, 19, 20, 21, 22, 23,
     8, 9, 10, 11, 12, 13, 14, 15, 0, 1, 2, 3, 4, 5, 6, 7] := by decide

/-- Both orders take each position once. -/
theorem byteOrder_nodup : byteOrder.Nodup := by decide

theorem wordOrder_nodup : wordOrder.Nodup := by decide

theorem mem_byteOrder (i : Nat) : i ∈ byteOrder ↔ i < 8 := by simp [byteOrder]

theorem mem_wordOrder (i : Nat) : i ∈ wordOrder ↔ i < 32 := by
  rw [wordOrder_eq]
  simp only [List.mem_cons, List.not_mem_nil, or_false]
  omega

/-- Bit `i` of a result field is bit `i` of the result. -/
@[simp] theorem getLsbD_resultField {w : Nat} (v : BitVec w) (i : Nat) :
    (resultField v).getLsbD i = (decide (i < 48) && v.getLsbD i) := by
  simp [resultField]

/-- A result that fits the field is read back whole. -/
@[simp] theorem setWidth_resultField {w : Nat} (h : w ≤ 48) (v : BitVec w) :
    (resultField v).setWidth w = v := by
  simp [resultField, BitVec.setWidth_setWidth_of_le, h]

end Sys2Proof.Laws
end

