-- ==== Sys2Proof/Laws/Cipher.lean ====
section
/-! SUPPORT. Parity, the feedback, the single forward step and its inverse, and sequences of steps. -/

namespace Sys2Proof.Laws

open Sys2Proof.Machine

/-! ### Parity -/

/-- XOR of bits is linear (rule R92). -/
theorem xorBits_xor {w : Nat} (a b : BitVec w) (n : Nat) :
    xorBits (a ^^^ b) n = (xorBits a n ^^ xorBits b n) := by
  induction n with
  | zero => rfl
  | succ n ih =>
    simp only [xorBits, ih, BitVec.getLsbD_xor]
    cases xorBits a n <;> cases xorBits b n <;> cases a.getLsbD n <;> cases b.getLsbD n <;> rfl

theorem parity32_xor (a b : BitVec 32) : parity32 (a ^^^ b) = (parity32 a ^^ parity32 b) :=
  xorBits_xor a b 32

theorem parity24_xor (a b : BitVec 24) : parity24 (a ^^^ b) = (parity24 a ^^ parity24 b) := by
  rw [parity24, BitVec.setWidth_xor, parity32_xor]; rfl

/-- The bits of `LF_POLY_ODD` (rule R90): the parity of the masked half is the XOR of twelve bits. -/
theorem parity24_lfPolyOdd (v : BitVec 24) :
    parity24 (lfPolyOdd &&& v) =
      (v.getLsbD 2 ^^ v.getLsbD 3 ^^ v.getLsbD 4 ^^ v.getLsbD 6 ^^ v.getLsbD 9 ^^ v.getLsbD 10
        ^^ v.getLsbD 11 ^^ v.getLsbD 14 ^^ v.getLsbD 15 ^^ v.getLsbD 16 ^^ v.getLsbD 19
        ^^ v.getLsbD 21) := by
  simp [parity24, parity32, xorBits, lfPolyOdd]

/-- The bits of `LF_POLY_EVEN` (rule R90): the parity of the masked half is the XOR of six bits. -/
theorem parity24_lfPolyEven (v : BitVec 24) :
    parity24 (lfPolyEven &&& v) =
      (v.getLsbD 2 ^^ v.getLsbD 11 ^^ v.getLsbD 16 ^^ v.getLsbD 17 ^^ v.getLsbD 18
        ^^ v.getLsbD 23) := by
  simp [parity24, parity32, xorBits, lfPolyEven]

/-! ### The single step and its inverse -/

@[simp] theorem step1_keystream (c : Cipher) (inp e : Bool) :
    (step1 c inp e).1 = c.keystream := rfl

@[simp] theorem step1_even (c : Cipher) (inp e : Bool) : (step1 c inp e).2.even = c.odd := rfl

/-- The new `ODD` (rule R101): the feedback bit at bit 0, the old `EVEN` one place up. -/
theorem getLsbD_step1_odd (c : Cipher) (inp e : Bool) (j : Nat) :
    (step1 c inp e).2.odd.getLsbD j =
      if j = 0 then fb c.odd c.even inp e else (decide (j < 24) && c.even.getLsbD (j - 1)) := by
  cases j with
  | zero => simp [step1]
  | succ j => simp [step1]

@[simp] theorem unstep1_keystream (c : Cipher) (inp e : Bool) :
    (unstep1 c inp e).1 = filter20 (c.even.extractLsb' 0 20) := rfl

@[simp] theorem unstep1_odd (c : Cipher) (inp e : Bool) : (unstep1 c inp e).2.odd = c.even := rfl

/-- The bit the inverse step puts back at `EVEN[23]` (rule R110). -/
def restoredBit (c : Cipher) (inp e : Bool) : Bool :=
  c.odd.getLsbD 0 ^^ parity24 (lfPolyEven &&& (c.odd.extractLsb' 1 23).setWidth 24)
    ^^ parity24 (lfPolyOdd &&& c.even) ^^ inp ^^ (e && filter20 (c.even.extractLsb' 0 20))

/-- The new `EVEN` (rule R110). -/
theorem getLsbD_unstep1_even (c : Cipher) (inp e : Bool) (j : Nat) :
    (unstep1 c inp e).2.even.getLsbD j =
      if j < 23 then c.odd.getLsbD (j + 1) else (decide (j = 23) && restoredBit c inp e) := by
  change BitVec.getLsbD (w := 1 + 23)
    (BitVec.ofBool (restoredBit c inp e) ++ c.odd.extractLsb' 1 23) j = _
  rw [BitVec.getLsbD_append, BitVec.getLsbD_extractLsb', BitVec.getLsbD_ofBool, Nat.add_comm 1 j]
  by_cases h : j < 23
  · simp [h]
  · simp only [h, if_false]
    congr 1
    simp only [decide_eq_decide]
    omega

/-- The bit lost by a forward step is the bit the inverse step rebuilds, because bit 23 of
`LF_POLY_EVEN` is 1 (rule R110). -/
theorem restoredBit_step1 (c : Cipher) (inp e : Bool) :
    restoredBit (step1 c inp e).2 inp e = c.even.getLsbD 23 := by
  have h0 := getLsbD_step1_odd c inp e 0
  have hl : ∀ j, j < 23 →
      (((step1 c inp e).2.odd.extractLsb' 1 23).setWidth 24).getLsbD j = c.even.getLsbD j := by
    intro j hj
    have := getLsbD_step1_odd c inp e (1 + j)
    simp only [BitVec.getLsbD_setWidth, BitVec.getLsbD_extractLsb', this]
    simp [hj, show j < 24 by omega, show 1 + j < 24 by omega]
  have h23 : (((step1 c inp e).2.odd.extractLsb' 1 23).setWidth 24).getLsbD 23 = false := by
    simp only [BitVec.getLsbD_setWidth, BitVec.getLsbD_extractLsb']; simp
  rw [restoredBit, h0, parity24_lfPolyEven, hl 2 (by decide), hl 11 (by decide), hl 16 (by decide),
    hl 17 (by decide), hl 18 (by decide), h23, step1_even]
  simp only [fb, parity24_xor, parity24_lfPolyEven, if_true]
  generalize parity24 (lfPolyOdd &&& c.odd) = a
  generalize (e && filter20 (c.odd.extractLsb' 0 20)) = b
  generalize c.even.getLsbD 2 = x1
  generalize c.even.getLsbD 11 = x2
  generalize c.even.getLsbD 16 = x3
  generalize c.even.getLsbD 17 = x4
  generalize c.even.getLsbD 18 = x5
  generalize c.even.getLsbD 23 = x6
  clear h0 hl h23
  revert a b x1 x2 x3 x4 x5 x6 inp
  decide

/-- The inverse step undoes the forward step and returns its keystream bit. -/
theorem unstep1_step1 (c : Cipher) (inp e : Bool) :
    unstep1 (step1 c inp e).2 inp e = ((step1 c inp e).1, c) := by
  refine Prod.ext rfl ?_
  have he : (unstep1 (step1 c inp e).2 inp e).2.even = c.even := by
    apply BitVec.eq_of_getLsbD_eq
    intro j hj
    rw [getLsbD_unstep1_even, restoredBit_step1]
    rcases Nat.lt_or_ge j 23 with h | h
    · rw [if_pos h, getLsbD_step1_odd, if_neg (by omega)]
      simp [show j + 1 < 24 by omega]
    · obtain rfl : j = 23 := by omega
      simp
  calc (unstep1 (step1 c inp e).2 inp e).2
      = ⟨(unstep1 (step1 c inp e).2 inp e).2.odd, (unstep1 (step1 c inp e).2 inp e).2.even⟩ := rfl
    _ = c := by rw [he]; rfl

/-- The feedback of the restored state is the bit that was shifted in. -/
theorem fb_unstep1 (c : Cipher) (inp e : Bool) :
    fb (unstep1 c inp e).2.odd (unstep1 c inp e).2.even inp e = c.odd.getLsbD 0 := by
  have hl : ∀ j, j < 23 → (unstep1 c inp e).2.even.getLsbD j =
      ((c.odd.extractLsb' 1 23).setWidth 24).getLsbD j := by
    intro j hj
    rw [getLsbD_unstep1_even, if_pos hj]
    simp only [BitVec.getLsbD_setWidth, BitVec.getLsbD_extractLsb']
    simp [hj, show j < 24 by omega, Nat.add_comm]
  have h23 : ((c.odd.extractLsb' 1 23).setWidth 24).getLsbD 23 = false := by
    simp only [BitVec.getLsbD_setWidth, BitVec.getLsbD_extractLsb']; simp
  have h : (unstep1 c inp e).2.even.getLsbD 23 = restoredBit c inp e := by
    rw [getLsbD_unstep1_even]; simp
  rw [fb, parity24_xor, parity24_lfPolyEven, hl 2 (by decide), hl 11 (by decide),
    hl 16 (by decide), hl 17 (by decide), hl 18 (by decide), h, restoredBit, parity24_lfPolyEven,
    h23, unstep1_odd]
  generalize parity24 (lfPolyOdd &&& c.even) = a
  generalize (e && filter20 (c.even.extractLsb' 0 20)) = b
  generalize c.odd.getLsbD 0 = p
  generalize ((c.odd.extractLsb' 1 23).setWidth 24).getLsbD 2 = x1
  generalize ((c.odd.extractLsb' 1 23).setWidth 24).getLsbD 11 = x2
  generalize ((c.odd.extractLsb' 1 23).setWidth 24).getLsbD 16 = x3
  generalize ((c.odd.extractLsb' 1 23).setWidth 24).getLsbD 17 = x4
  generalize ((c.odd.extractLsb' 1 23).setWidth 24).getLsbD 18 = x5
  clear hl h23 h
  revert a b p x1 x2 x3 x4 x5 inp
  decide

/-- The forward step undoes the inverse step and returns the same keystream bit. -/
theorem step1_unstep1 (c : Cipher) (inp e : Bool) :
    step1 (unstep1 c inp e).2 inp e = ((unstep1 c inp e).1, c) := by
  refine Prod.ext rfl ?_
  have ho : (step1 (unstep1 c inp e).2 inp e).2.odd = c.odd := by
    apply BitVec.eq_of_getLsbD_eq
    intro j hj
    rw [getLsbD_step1_odd, fb_unstep1]
    cases j with
    | zero => simp
    | succ j =>
      simp only [Nat.add_one_sub_one, getLsbD_unstep1_even, if_pos (show j < 23 by omega)]
      simp [hj]
  calc (step1 (unstep1 c inp e).2 inp e).2
      = ⟨(step1 (unstep1 c inp e).2 inp e).2.odd, (step1 (unstep1 c inp e).2 inp e).2.even⟩ := rfl
    _ = c := by rw [ho]; rfl

/-! ### Sequences of steps -/

variable {w : Nat} (one : Cipher → Bool → Bool → Bool × Cipher) (e : Bool) (arg : BitVec w)

@[simp] theorem runSteps_nil (q : BitVec w) (c : Cipher) : runSteps one e arg [] q c = (q, c) := rfl

@[simp] theorem runSteps_cons (k : Nat) (ks : List Nat) (q : BitVec w) (c : Cipher) :
    runSteps one e arg (k :: ks) q c =
      runSteps one e arg ks (writeBit q k (one c (arg.getLsbD k) e).1)
        (one c (arg.getLsbD k) e).2 := rfl

theorem runSteps_append (l₁ l₂ : List Nat) (q : BitVec w) (c : Cipher) :
    runSteps one e arg (l₁ ++ l₂) q c =
      runSteps one e arg l₂ (runSteps one e arg l₁ q c).1 (runSteps one e arg l₁ q c).2 := by
  induction l₁ generalizing q c with
  | nil => rfl
  | cons k ks ih => simp only [List.cons_append, runSteps_cons, ih]

/-- The state a sequence of steps leads to does not depend on the result gathered so far. -/
theorem runSteps_state (l : List Nat) (q q' : BitVec w) (c : Cipher) :
    (runSteps one e arg l q c).2 = (runSteps one e arg l q' c).2 := by
  induction l generalizing q q' c with
  | nil => rfl
  | cons k ks ih => simp only [runSteps_cons]; exact ih _ _ _

/-- A position that is not visited keeps its bit. -/
theorem runSteps_bit_of_notMem (l : List Nat) (q : BitVec w) (c : Cipher) (i : Nat) (h : i ∉ l) :
    (runSteps one e arg l q c).1.getLsbD i = q.getLsbD i := by
  induction l generalizing q c with
  | nil => rfl
  | cons k ks ih =>
    simp only [List.mem_cons, not_or] at h
    rw [runSteps_cons, ih _ _ h.2, getLsbD_writeBit, if_neg (fun hk => h.1 hk.1)]

/-- Once every position of a result has been visited, what it held before does not matter. -/
theorem runSteps_result (l : List Nat) (q q' : BitVec w) (c : Cipher) (h : ∀ i < w, i ∈ l) :
    runSteps one e arg l q c = runSteps one e arg l q' c := by
  have key : ∀ (l : List Nat) (q q' : BitVec w) (c : Cipher) (i : Nat), i < w → i ∈ l →
      (runSteps one e arg l q c).1.getLsbD i = (runSteps one e arg l q' c).1.getLsbD i := by
    intro l
    induction l with
    | nil => intro _ _ _ _ _ hm; cases hm
    | cons k ks ih =>
      intro q q' c i hi hm
      by_cases hk : i ∈ ks
      · exact ih _ _ _ _ hi hk
      · obtain rfl : i = k := by simpa [hk] using hm
        simp only [runSteps_cons]
        rw [runSteps_bit_of_notMem _ _ _ _ _ _ _ hk, runSteps_bit_of_notMem _ _ _ _ _ _ _ hk,
          getLsbD_writeBit, getLsbD_writeBit, if_pos ⟨rfl, hi⟩, if_pos ⟨rfl, hi⟩]
  refine Prod.ext ?_ (runSteps_state one e arg l q q' c)
  exact BitVec.eq_of_getLsbD_eq fun i hi => key l q q' c i hi (h i hi)

/-- Steps undone in reverse order: if `two` undoes `one` and returns the same bit, then running `two`
over the reversed positions restores the state and rewrites the same result. -/
theorem runSteps_reverse (two : Cipher → Bool → Bool → Bool × Cipher)
    (hinv : ∀ c inp e, two (one c inp e).2 inp e = ((one c inp e).1, c))
    (l : List Nat) (hl : l.Nodup) (q : BitVec w) (c : Cipher) :
    runSteps two e arg l.reverse (runSteps one e arg l q c).1 (runSteps one e arg l q c).2 =
      ((runSteps one e arg l q c).1, c) := by
  induction l generalizing q c with
  | nil => rfl
  | cons k ks ih =>
    obtain ⟨hk, hks⟩ := List.nodup_cons.mp hl
    simp only [List.reverse_cons, runSteps_append, runSteps_cons, runSteps_nil, ih hks, hinv]
    refine Prod.ext ?_ rfl
    apply BitVec.eq_of_getLsbD_eq
    intro i hi
    rw [getLsbD_writeBit]
    split
    · rename_i h
      rw [h.1, runSteps_bit_of_notMem _ _ _ _ _ _ _ hk, getLsbD_writeBit,
        if_pos ⟨rfl, by have := h.1; omega⟩]
    · rfl

end Sys2Proof.Laws
end

