-- ==== Sys2Proof/Laws/Crc.lean ====
section
/-! SUPPORT. The CRC_A byte step bit by bit, and messages of several bytes. -/

namespace Sys2Proof.Laws

open Sys2Proof.Machine

/-- The mixed byte `t` of rule R131. -/
def crcMix (c : BitVec 16) (b : BitVec 8) : BitVec 8 :=
  (b ^^^ c.extractLsb' 0 8) ^^^ ((b ^^^ c.extractLsb' 0 8) <<< 4)

/-- Every bit of the new CRC value (rule R131): the high byte moved down, and `t` moved by 8, by 3 and
by minus 4 places. -/
theorem getLsbD_crcStep (c : BitVec 16) (b : BitVec 8) (i : Nat) (hi : i < 16) :
    (crcStep c b).getLsbD i =
      ((decide (i < 8) && c.getLsbD (i + 8)) ^^ (decide (8 ≤ i) && (crcMix c b).getLsbD (i - 8))
        ^^ (decide (3 ≤ i) && (crcMix c b).getLsbD (i - 3))
        ^^ (decide (i < 4) && (crcMix c b).getLsbD (i + 4))) := by
  have h8 : BitVec.getLsbD (w := 16) (crcMix c b ++ 0#8) i =
      (decide (8 ≤ i) && (crcMix c b).getLsbD (i - 8)) := by
    change BitVec.getLsbD (w := 8 + 8) (crcMix c b ++ 0#8) i = _
    rw [BitVec.getLsbD_append]
    by_cases h : i < 8
    · simp [h]
    · simp [h, show 8 ≤ i by omega]
  have h3 : (BitVec.setWidth 16 (show BitVec 11 from crcMix c b ++ 0#3)).getLsbD i =
      (decide (3 ≤ i) && (crcMix c b).getLsbD (i - 3)) := by
    rw [BitVec.getLsbD_setWidth]
    change (decide (i < 16) && BitVec.getLsbD (w := 8 + 3) (crcMix c b ++ 0#3) i) = _
    rw [BitVec.getLsbD_append]
    by_cases h : i < 3
    · simp [h]
    · simp [h, hi, show 3 ≤ i by omega]
  change (((c.extractLsb' 8 8).setWidth 16 ^^^ (show BitVec 16 from crcMix c b ++ 0#8)
    ^^^ (BitVec.setWidth 16 (show BitVec 11 from crcMix c b ++ 0#3))
    ^^^ ((crcMix c b).extractLsb' 4 4).setWidth 16)).getLsbD i = _
  rw [BitVec.getLsbD_xor, BitVec.getLsbD_xor, BitVec.getLsbD_xor, h3]
  change ((((c.extractLsb' 8 8).setWidth 16).getLsbD i
    ^^ BitVec.getLsbD (w := 16) (crcMix c b ++ 0#8) i) ^^ _ ^^ _) = _
  rw [h8]
  simp only [BitVec.getLsbD_setWidth, BitVec.getLsbD_extractLsb', hi, decide_true, Bool.true_and,
    Nat.add_comm 8 i, Nat.add_comm 4 i]

/-- A byte equal to the low byte empties it: the new value is the old one moved down by 8
(rule R133). -/
theorem crcStep_low_byte (c : BitVec 16) : crcStep c (c.extractLsb' 0 8) = c >>> 8 := by
  apply BitVec.eq_of_getLsbD_eq
  intro i hi
  have ht : crcMix c (c.extractLsb' 0 8) = 0#8 := by simp [crcMix]
  rw [getLsbD_crcStep _ _ _ hi, ht, BitVec.getLsbD_ushiftRight]
  by_cases h : i < 8
  · simp [h, Nat.add_comm]
  · have : c.getLsbD (8 + i) = false := BitVec.getLsbD_of_ge _ _ (by omega)
    simp [h, this]

/-- Feeding bytes one after the other is feeding the message (rule R130). -/
theorem crcA_append (xs ys : List (BitVec 8)) : crcA (xs ++ ys) = ys.foldl crcStep (crcA xs) := by
  simp [crcA, List.foldl_append]

end Sys2Proof.Laws
end

