-- ==== Sys2Proof/Laws/Decode.lean ====
section
/-! SUPPORT. What the decoder, the encoder and the command word do, field by field. -/

namespace Sys2Proof.Laws

/-- Every bit of a command word with `RSV = 0`. -/
theorem getLsbD_commandWord (op : BitVec 8) (e : Bool) (arg : Field48) (i : Nat) :
    (commandWord op e arg).getLsbD i =
      if i < 48 then arg.getLsbD i
      else if i = 48 then e
      else if i < 56 then false
      else op.getLsbD (i - 56) := by
  change BitVec.getLsbD (w := 8 + 7 + 1 + 48) (op ++ 0#7 ++ BitVec.ofBool e ++ arg) i = _
  simp only [BitVec.getLsbD_append, BitVec.getLsbD_zero, BitVec.getLsbD_ofBool]
  rcases Nat.lt_or_ge i 48 with h | h
  · simp [h]
  rcases Nat.lt_trichotomy i 48 with h1 | h1 | h1
  · omega
  · subst h1; simp
  rcases Nat.lt_or_ge i 56 with h2 | h2
  · simp [show ¬ i < 48 by omega, show ¬ i - 48 < 1 by omega, show ¬ i = 48 by omega,
      show i - 48 - 1 < 7 by omega, h2]
  · simp [show ¬ i < 48 by omega, show ¬ i - 48 < 1 by omega, show ¬ i = 48 by omega,
      show ¬ i - 48 - 1 < 7 by omega, show ¬ i < 56 by omega,
      show i - 48 - 1 - 7 = i - 56 by omega]

/-! ### The fields of a command word read back -/

@[simp] theorem opField_commandWord (op : BitVec 8) (e : Bool) (arg : Field48) :
    opField (commandWord op e arg) = op := by
  apply BitVec.eq_of_getLsbD_eq
  intro i hi
  simp only [opField, BitVec.getLsbD_extractLsb', getLsbD_commandWord]
  simp [hi, show ¬ 56 + i < 48 by omega, show ¬ 56 + i = 48 by omega]

@[simp] theorem rsvField_commandWord (op : BitVec 8) (e : Bool) (arg : Field48) :
    rsvField (commandWord op e arg) = 0#7 := by
  apply BitVec.eq_of_getLsbD_eq
  intro i hi
  simp only [rsvField, BitVec.getLsbD_extractLsb', getLsbD_commandWord]
  simp [show ¬ 49 + i < 48 by omega, show ¬ 49 + i = 48 by omega, show 49 + i < 56 by omega]

@[simp] theorem eField_commandWord (op : BitVec 8) (e : Bool) (arg : Field48) :
    eField (commandWord op e arg) = e := by
  rw [eField, getLsbD_commandWord]; simp

@[simp] theorem argField_commandWord (op : BitVec 8) (e : Bool) (arg : Field48) :
    argField (commandWord op e arg) = arg := by
  apply BitVec.eq_of_getLsbD_eq
  intro i hi
  simp only [argField, BitVec.getLsbD_extractLsb', getLsbD_commandWord]
  simp [hi]

/-- A word is its four fields. -/
theorem commandWord_of_fields (w : CommandWord) (h : rsvField w = 0#7) :
    commandWord (opField w) (eField w) (argField w) = w := by
  apply BitVec.eq_of_getLsbD_eq
  intro i hi
  rw [getLsbD_commandWord]
  rcases Nat.lt_or_ge i 48 with h0 | h0
  · rw [if_pos h0]; simp only [argField, BitVec.getLsbD_extractLsb']; simp [h0]
  rw [if_neg (by omega)]
  rcases Nat.lt_trichotomy i 48 with h1 | h1 | h1
  · omega
  · rw [if_pos h1]; simp only [eField, h1]
  rw [if_neg (by omega)]
  rcases Nat.lt_or_ge i 56 with h2 | h2
  · rw [if_pos h2]
    have hb := congrArg (fun v : BitVec 7 => v.getLsbD (i - 49)) h
    simp only [rsvField, BitVec.getLsbD_extractLsb', BitVec.getLsbD_zero] at hb
    rw [show 49 + (i - 49) = i by omega] at hb
    simpa [show i - 49 < 7 by omega] using hb.symm
  · rw [if_neg (by omega)]
    simp only [opField, BitVec.getLsbD_extractLsb', show 56 + (i - 56) = i by omega]
    simp [show i - 56 < 8 by omega]

/-! ### The opcode map -/

/-- Each mnemonic is the one its opcode selects. -/
@[simp] theorem mnemonicOf_opcode (m : Mnemonic) : mnemonicOf m.opcode = some m := by
  cases m <;> rfl

/-- An opcode selects a mnemonic only if it is that mnemonic's. -/
theorem opcode_of_mnemonicOf {op : BitVec 8} {m : Mnemonic} (h : mnemonicOf op = some m) :
    op = m.opcode := by
  have key : ∀ n : Fin 256, mnemonicOf (BitVec.ofFin n) = some m → BitVec.ofFin n = m.opcode := by
    cases m <;> decide +kernel
  exact key op.toFin h

/-- The command word of a command decodes through its mnemonic. -/
@[simp] theorem mnemonic_instrOf (m : Mnemonic) (e : Bool) (arg : Field48) :
    (instrOf m e arg).mnemonic = m := by
  cases m <;> rfl

/-- The flag of a decoded command. -/
theorem eFlag_instrOf (m : Mnemonic) (e : Bool) (arg : Field48) :
    (instrOf m e arg).eFlag = (e && m.takesE) := by
  cases m <;> simp [instrOf, Instr.eFlag, Mnemonic.takesE]

/-! ### What the decoder can answer -/

/-- All the cases of `decode`, once: unknown opcode; a known one with a reserved bit set or a misplaced
`E`; a known one with an operand out of range; a legal command. -/
theorem decode_cases (w : CommandWord) :
    (mnemonicOf (opField w) = none ∧ decode w = .illegal .unknownOpcode) ∨
    (∃ m : Mnemonic, opField w = m.opcode ∧ (rsvField w ≠ 0#7 ∨ (eField w = true ∧ m.takesE = false)) ∧
      decode w = .illegal .reservedBits) ∨
    (∃ m : Mnemonic, opField w = m.opcode ∧ rsvField w = 0#7 ∧ (eField w = true → m.takesE = true) ∧
      argField w >>> m.operandWidth ≠ 0#48 ∧ decode w = .illegal .operandRange) ∨
    (∃ m : Mnemonic, opField w = m.opcode ∧ rsvField w = 0#7 ∧ (eField w = true → m.takesE = true) ∧
      argField w >>> m.operandWidth = 0#48 ∧
      decode w = .command (instrOf m (eField w) (argField w))) := by
  unfold decode
  cases h : mnemonicOf (opField w) with
  | none => exact .inl ⟨rfl, rfl⟩
  | some m =>
    have ho := opcode_of_mnemonicOf h
    refine .inr ?_
    by_cases hr : rsvField w = 0#7
    · by_cases he : (eField w && !m.takesE) = true
      · refine .inl ⟨m, ho, .inr (by simpa using he), ?_⟩
        simp [hr, he]
      · have he' : eField w = true → m.takesE = true := by
          intro h1; simpa [h1] using he
        by_cases ha : argField w >>> m.operandWidth = 0#48
        · exact .inr (.inr ⟨m, ho, hr, he', ha, by simp [hr, he, ha]⟩)
        · exact .inr (.inl ⟨m, ho, hr, he', ha, by simp [hr, he, ha]⟩)
    · exact .inl ⟨m, ho, .inl hr, by simp [hr]⟩

/-- The decoder on a word with known opcode, as one equation. -/
theorem decode_of_opcode {w : CommandWord} {m : Mnemonic} (h : opField w = m.opcode) :
    decode w =
      if rsvField w ≠ 0#7 then .illegal .reservedBits
      else if eField w && !m.takesE then .illegal .reservedBits
      else if argField w >>> m.operandWidth ≠ 0#48 then .illegal .operandRange
      else .command (instrOf m (eField w) (argField w)) := by
  unfold decode
  rw [h, mnemonicOf_opcode]

/-- Shifted out means small: the test of cause 3 in numbers. -/
theorem shift_eq_zero_iff (a : Field48) (n : Nat) : a >>> n = 0#48 ↔ a.toNat < 2 ^ n := by
  rw [← BitVec.toNat_inj, BitVec.toNat_ushiftRight, Nat.shiftRight_eq_div_pow]
  simp [Nat.div_eq_zero_iff]

/-! ### The match and mask pairs -/

/-- A word with `RSV = 0` and no stray flag or operand bit lies on its mnemonic's row (rule R60). -/
theorem commandWord_on_row (m : Mnemonic) (e : Bool) (arg : Field48)
    (he : e = true → m.takesE = true) (ha : ∀ i, m.operandWidth ≤ i → arg.getLsbD i = false) :
    commandWord m.opcode e arg &&& m.maskBits = m.matchBits := by
  have hmask : ∀ i : Fin 64, m.maskBits.getLsbD i =
      (decide (49 ≤ i.val) || (decide (i.val = 48) && !m.takesE)
        || (decide (m.operandWidth ≤ i.val) && decide (i.val < 48))) := by
    cases m <;> decide +kernel
  have hmatch : ∀ i : Fin 64, m.matchBits.getLsbD i =
      (decide (56 ≤ i.val) && m.opcode.getLsbD (i.val - 56)) := by
    cases m <;> decide +kernel
  apply BitVec.eq_of_getLsbD_eq
  intro i hi
  rw [BitVec.getLsbD_and, hmask ⟨i, hi⟩, hmatch ⟨i, hi⟩, getLsbD_commandWord]
  rcases Nat.lt_or_ge i 48 with h0 | h0
  · rcases Nat.lt_or_ge i m.operandWidth with h1 | h1
    · simp [h0, show ¬ 49 ≤ i by omega, show ¬ i = 48 by omega, show ¬ m.operandWidth ≤ i by omega,
        show ¬ 56 ≤ i by omega]
    · simp only [h0, if_true, ha i h1]; simp [show ¬ 56 ≤ i by omega]
  rcases Nat.lt_trichotomy i 48 with h1 | h1 | h1
  · omega
  · subst h1; cases e <;> simp_all
  · rcases Nat.lt_or_ge i 56 with h2 | h2
    · simp [show ¬ i < 48 by omega, show ¬ i = 48 by omega, h2, show ¬ 56 ≤ i by omega]
    · simp [show ¬ i < 48 by omega, show ¬ i = 48 by omega, show ¬ i < 56 by omega, h2,
        show 49 ≤ i by omega]

end Sys2Proof.Laws
end

