-- ==== Sys2Proof/Laws/State.lean ====
section
/-! SUPPORT. One lemma per field per update of the state, and how the response word reads back. -/

namespace Sys2Proof.Laws

open Sys2Proof.Machine

/-! ### `setCipher` -/

@[simp] theorem setCipher_odd (s : State) (c : Cipher) : (s.setCipher c).odd = c.odd := rfl
@[simp] theorem setCipher_even (s : State) (c : Cipher) : (s.setCipher c).even = c.even := rfl
@[simp] theorem setCipher_pr (s : State) (c : Cipher) : (s.setCipher c).pr = s.pr := rfl
@[simp] theorem setCipher_crc (s : State) (c : Cipher) : (s.setCipher c).crc = s.crc := rfl
@[simp] theorem setCipher_err (s : State) (c : Cipher) : (s.setCipher c).err = s.err := rfl
@[simp] theorem setCipher_inputs (s : State) (c : Cipher) : (s.setCipher c).inputs = s.inputs := rfl
@[simp] theorem setCipher_rsp (s : State) (c : Cipher) : (s.setCipher c).rsp = s.rsp := rfl
@[simp] theorem setCipher_cipher (s : State) (c : Cipher) : (s.setCipher c).cipher = c := rfl
@[simp] theorem cipher_odd (s : State) : s.cipher.odd = s.odd := rfl
@[simp] theorem cipher_even (s : State) : s.cipher.even = s.even := rfl

/-- Writing back the cipher state that is there changes nothing. -/
@[simp] theorem setCipher_self (s : State) : s.setCipher s.cipher = s := rfl

/-! ### `answer` -/

@[simp] theorem answer_odd (s : State) (q : BitVec 48) : (s.answer q).odd = s.odd := rfl
@[simp] theorem answer_even (s : State) (q : BitVec 48) : (s.answer q).even = s.even := rfl
@[simp] theorem answer_pr (s : State) (q : BitVec 48) : (s.answer q).pr = s.pr := rfl
@[simp] theorem answer_crc (s : State) (q : BitVec 48) : (s.answer q).crc = s.crc := rfl
@[simp] theorem answer_err (s : State) (q : BitVec 48) : (s.answer q).err = s.err := rfl
@[simp] theorem answer_inputs (s : State) (q : BitVec 48) : (s.answer q).inputs = s.inputs := rfl
@[simp] theorem answer_cipher (s : State) (q : BitVec 48) : (s.answer q).cipher = s.cipher := rfl
@[simp] theorem answer_rsp (s : State) (q : BitVec 48) :
    (s.answer q).rsp = some (response s.err false 0#2 q) := rfl

/-! ### `present` -/

@[simp] theorem present_odd (s : State) (w : CommandWord) : (s.present w).odd = s.odd := rfl
@[simp] theorem present_even (s : State) (w : CommandWord) : (s.present w).even = s.even := rfl
@[simp] theorem present_pr (s : State) (w : CommandWord) : (s.present w).pr = s.pr := rfl
@[simp] theorem present_crc (s : State) (w : CommandWord) : (s.present w).crc = s.crc := rfl
@[simp] theorem present_err (s : State) (w : CommandWord) : (s.present w).err = s.err := rfl
@[simp] theorem present_rsp (s : State) (w : CommandWord) : (s.present w).rsp = s.rsp := rfl
@[simp] theorem present_inputs (s : State) (w : CommandWord) :
    (s.present w).inputs = .command w :: s.inputs := rfl

/-- Presenting a command and fetching it gives back the state. -/
@[simp] theorem fetch_present (s : State) (w : CommandWord) :
    fetch (s.present w) = some (.command w, s) := rfl

/-! ### `takeReset` and `takeIllegal` -/

@[simp] theorem takeReset_odd (s : State) : (takeReset s).odd = 0#24 := rfl
@[simp] theorem takeReset_even (s : State) : (takeReset s).even = 0#24 := rfl
@[simp] theorem takeReset_pr (s : State) : (takeReset s).pr = 0#32 := rfl
@[simp] theorem takeReset_crc (s : State) : (takeReset s).crc = 0x6363#16 := rfl
@[simp] theorem takeReset_err (s : State) : (takeReset s).err = false := rfl
@[simp] theorem takeReset_inputs (s : State) : (takeReset s).inputs = s.inputs := rfl
@[simp] theorem takeReset_rsp (s : State) : (takeReset s).rsp = none := rfl

@[simp] theorem takeIllegal_odd (c : Cause) (s : State) : (takeIllegal c s).odd = s.odd := rfl
@[simp] theorem takeIllegal_even (c : Cause) (s : State) : (takeIllegal c s).even = s.even := rfl
@[simp] theorem takeIllegal_pr (c : Cause) (s : State) : (takeIllegal c s).pr = s.pr := rfl
@[simp] theorem takeIllegal_crc (c : Cause) (s : State) : (takeIllegal c s).crc = s.crc := rfl
@[simp] theorem takeIllegal_err (c : Cause) (s : State) : (takeIllegal c s).err = true := rfl
@[simp] theorem takeIllegal_inputs (c : Cause) (s : State) :
    (takeIllegal c s).inputs = s.inputs := rfl
@[simp] theorem takeIllegal_rsp (c : Cause) (s : State) :
    (takeIllegal c s).rsp = some (response true true c.code 0#48) := rfl

/-! ### The response word (rule R56) -/

/-- Every bit of a response word. -/
theorem getLsbD_response (err ill : Bool) (cause : BitVec 2) (q : BitVec 48) (i : Nat) :
    (response err ill cause q).getLsbD i =
      if i < 48 then q.getLsbD i
      else if i < 56 then false
      else if i < 58 then cause.getLsbD (i - 56)
      else if i < 62 then false
      else if i = 62 then ill
      else if i = 63 then err
      else false := by
  change BitVec.getLsbD (w := 1 + 1 + 4 + 2 + 8 + 48)
    (BitVec.ofBool err ++ BitVec.ofBool ill ++ 0#4 ++ cause ++ 0#8 ++ q) i = _
  simp only [BitVec.getLsbD_append, BitVec.getLsbD_zero, BitVec.getLsbD_ofBool]
  rcases Nat.lt_or_ge i 48 with h | h
  · simp [h]
  rcases Nat.lt_or_ge i 56 with h' | h'
  · simp [show ¬ i < 48 by omega, show i - 48 < 8 by omega, h']
  have e : i - 48 - 8 = i - 56 := by omega
  rcases Nat.lt_or_ge i 58 with h2 | h2
  · simp [show ¬ i < 48 by omega, show ¬ i - 48 < 8 by omega, show ¬ i < 56 by omega,
      show i - 56 < 2 by omega, h2, e]
  rcases Nat.lt_or_ge i 62 with h3 | h3
  · simp [show ¬ i < 48 by omega, show ¬ i - 48 < 8 by omega, show ¬ i < 56 by omega,
      show ¬ i - 56 < 2 by omega, show ¬ i < 58 by omega, show i - 56 - 2 < 4 by omega, h3, e]
  simp only [show ¬ i < 48 by omega, show ¬ i - 48 < 8 by omega, show ¬ i < 56 by omega,
    show ¬ i - 48 - 8 < 2 by omega, show ¬ i < 58 by omega, show ¬ i - 48 - 8 - 2 < 4 by omega,
    show ¬ i < 62 by omega, if_false]
  rcases Nat.lt_trichotomy i 63 with h4 | h4 | h4
  · obtain rfl : i = 62 := by omega
    simp
  · subst h4; simp
  · simp [show ¬ i = 62 by omega, show ¬ i = 63 by omega, show ¬ i - 48 - 8 - 2 - 4 < 1 by omega,
      show ¬ i - 48 - 8 - 2 - 4 - 1 = 0 by omega]

@[simp] theorem rspErr_response (err ill : Bool) (cause : BitVec 2) (q : BitVec 48) :
    rspErr (response err ill cause q) = err := by
  rw [rspErr, getLsbD_response]; simp

@[simp] theorem rspIll_response (err ill : Bool) (cause : BitVec 2) (q : BitVec 48) :
    rspIll (response err ill cause q) = ill := by
  rw [rspIll, getLsbD_response]; simp

@[simp] theorem rspCause_response (err ill : Bool) (cause : BitVec 2) (q : BitVec 48) :
    rspCause (response err ill cause q) = cause := by
  apply BitVec.eq_of_getLsbD_eq
  intro i hi
  simp only [rspCause, BitVec.getLsbD_extractLsb', getLsbD_response]
  simp [hi, show ¬ 56 + i < 48 by omega, show 56 + i < 58 by omega]

@[simp] theorem rspQ_response (err ill : Bool) (cause : BitVec 2) (q : BitVec 48) :
    rspQ (response err ill cause q) = q := by
  apply BitVec.eq_of_getLsbD_eq
  intro i hi
  simp only [rspQ, BitVec.getLsbD_extractLsb', getLsbD_response]
  simp [hi]

/-- The reserved bits `RSP[61:58]` are zero. -/
@[simp] theorem response_high_reserved (err ill : Bool) (cause : BitVec 2) (q : BitVec 48) :
    (response err ill cause q).extractLsb' 58 4 = 0#4 := by
  apply BitVec.eq_of_getLsbD_eq
  intro i hi
  simp only [BitVec.getLsbD_extractLsb', getLsbD_response]
  simp [show ¬ 58 + i < 48 by omega, show ¬ 58 + i < 56 by omega, show 58 + i < 62 by omega]

/-- The reserved bits `RSP[55:48]` are zero. -/
@[simp] theorem response_low_reserved (err ill : Bool) (cause : BitVec 2) (q : BitVec 48) :
    (response err ill cause q).extractLsb' 48 8 = 0#8 := by
  apply BitVec.eq_of_getLsbD_eq
  intro i hi
  simp only [BitVec.getLsbD_extractLsb', getLsbD_response]
  simp [show ¬ 48 + i < 48 by omega, show 48 + i < 56 by omega]

end Sys2Proof.Laws
end

