-- ==== Sys2Proof/Laws/Exec.lean ====
section
/-! SUPPORT. What executing a command and taking a step can do, said once. -/

namespace Sys2Proof.Laws

open Sys2Proof.Machine

/-! ### One shape for all twenty commands -/

/-- The state a command leaves at the data registers (rule R33): the cipher group, `PR`, `CRC`. -/
def dataAfter (i : Instr) (s : State) : State :=
  match i with
  | .ldkey key => s.setCipher (packKey key)
  | .ldst odd even => s.setCipher ⟨odd, even⟩
  | .stbit e inp => s.setCipher (step1 s.cipher (inp.getLsbD 0) e).2
  | .stbyte e inp => s.setCipher (runSteps step1 e inp byteOrder 0#8 s.cipher).2
  | .stword e inp => s.setCipher (runSteps step1 e inp wordOrder 0#32 s.cipher).2
  | .rbbit e inp => s.setCipher (unstep1 s.cipher (inp.getLsbD 0) e).2
  | .rbbyte e inp => s.setCipher (runSteps unstep1 e inp byteOrder.reverse 0#8 s.cipher).2
  | .rbword e inp => s.setCipher (runSteps unstep1 e inp wordOrder.reverse 0#32 s.cipher).2
  | .prld n => { s with pr := n }
  | .prstep k => { s with pr := prngAdvance s.pr k }
  | .crcinit => { s with crc := crcInit }
  | .crcbyte b => { s with crc := crcStep s.crc b }
  | .nop | .rdkey | .rdst | .filt _ | .par _ | .swap _ | .crcrd | .crcchk _ => s

/-- The result `Q` of a command (the last column of rule R58). -/
def resultOf (i : Instr) (s : State) : BitVec 48 :=
  match i with
  | .rdkey => unpackKey s.cipher
  | .rdst => s.odd ++ s.even
  | .stbit e inp => resultField (BitVec.ofBool (step1 s.cipher (inp.getLsbD 0) e).1)
  | .stbyte e inp => resultField (runSteps step1 e inp byteOrder 0#8 s.cipher).1
  | .stword e inp => resultField (runSteps step1 e inp wordOrder 0#32 s.cipher).1
  | .rbbit e inp => resultField (BitVec.ofBool (unstep1 s.cipher (inp.getLsbD 0) e).1)
  | .rbbyte e inp => resultField (runSteps unstep1 e inp byteOrder.reverse 0#8 s.cipher).1
  | .rbword e inp => resultField (runSteps unstep1 e inp wordOrder.reverse 0#32 s.cipher).1
  | .filt x => resultField (BitVec.ofBool (filter20 (x.extractLsb' 0 20)))
  | .par x => resultField (BitVec.ofBool (parity32 x))
  | .swap x => resultField (swap32 x)
  | .prstep k => resultField (prngAdvance s.pr k)
  | .crcrd => resultField s.crc
  | .crcchk r => resultField (BitVec.ofBool (r == s.crc))
  | .nop | .ldkey _ | .ldst _ _ | .prld _ | .crcinit | .crcbyte _ => 0#48

/-- Every command completes: it writes its data registers and answers its result. -/
theorem exec_eq (i : Instr) (s : State) :
    exec i s = .next ((dataAfter i s).answer (resultOf i s)) := by
  cases i <;> rfl

/-! ### The frame of all commands (rule R33) -/

@[simp] theorem dataAfter_err (i : Instr) (s : State) : (dataAfter i s).err = s.err := by
  cases i <;> rfl

@[simp] theorem dataAfter_inputs (i : Instr) (s : State) : (dataAfter i s).inputs = s.inputs := by
  cases i <;> rfl

@[simp] theorem dataAfter_rsp (i : Instr) (s : State) : (dataAfter i s).rsp = s.rsp := by
  cases i <;> rfl

/-! ### One step -/

/-- All the cases of a step, once: the core waits, resets, executes a command, or takes
`IllegalCommand`. -/
theorem step_cases (s : State) :
    (s.inputs = [] ∧ step s = .next s) ∨
    (∃ rest, s.inputs = .reset :: rest ∧ step s = .next (takeReset { s with inputs := rest })) ∨
    (∃ w rest i, s.inputs = .command w :: rest ∧ decode w = .command i ∧
      step s = exec i { s with inputs := rest }) ∨
    (∃ w rest c, s.inputs = .command w :: rest ∧ decode w = .illegal c ∧
      step s = .next (takeIllegal c { s with inputs := rest })) := by
  unfold step fetch
  cases hs : s.inputs with
  | nil => exact .inl ⟨rfl, rfl⟩
  | cons x rest =>
    cases x with
    | reset => exact .inr (.inl ⟨rest, rfl, rfl⟩)
    | command w =>
      cases hd : decode w with
      | command i => exact .inr (.inr (.inl ⟨w, rest, i, rfl, hd, by simp [hd]⟩))
      | illegal c => exact .inr (.inr (.inr ⟨w, rest, c, rfl, hd, by simp [hd]⟩))

/-- A presented command that decodes is the one executed. -/
theorem step_present_command {w : CommandWord} {i : Instr} (s : State)
    (h : decode w = .command i) : step (s.present w) = exec i s := by
  simp [step, h]

/-- A presented word that is illegal raises `IllegalCommand`. -/
theorem step_present_illegal {w : CommandWord} {c : Cause} (s : State)
    (h : decode w = .illegal c) : step (s.present w) = .next (takeIllegal c s) := by
  simp [step, h]

/-- The host's way to place an opcode-table word is presenting it. -/
theorem withFetchWord_eq (s : State) (nbits w : Nat) :
    s.withFetchWord nbits w = s.present (BitVec.ofNat 64 (w % 2 ^ nbits)) := rfl

/-- Runs compose: `a + b` steps are `a` steps and then `b`. -/
theorem run_add (M : Host.Core) (a b : Nat) (s t : M.State) (h : M.run a s = .next t) :
    M.run (a + b) s = M.run b t := by
  induction a generalizing s with
  | zero =>
    obtain rfl : s = t := by simpa [Host.Core.run] using h
    rw [Nat.zero_add]
  | succ a ih =>
    rw [Nat.succ_add, Host.Core.run]
    rw [Host.Core.run] at h
    cases hs : M.step s with
    | next u => rw [hs] at h; exact ih u h
    | fault r => rw [hs] at h; simp at h
    | refused r => rw [hs] at h; simp at h

end Sys2Proof.Laws
end

