-- ==== Sys2Proof/Laws/PerInstr.lean ====
section
/-! SUPPORT. Statements made per instruction: the encoding of each command lies on its row of
spec/opcode_table.json (rule R60). -/

namespace Sys2Proof.Laws.OnRow

/-- The command word of `i`, masked, is its row's match value. -/
def Statement (i : Instr) : Prop := encode i &&& i.mnemonic.maskBits = i.mnemonic.matchBits

/-- A zero-extended operand has no bit at or above its width. -/
theorem operand_fits {w : Nat} (x : BitVec w) (n i : Nat) (h : w ≤ i) :
    (x.setWidth n).getLsbD i = false := by
  simp [BitVec.getLsbD_of_ge x i h]

theorem nop : Statement .nop := commandWord_on_row .NOP false 0#48 nofun (by simp)

theorem ldkey (key : BitVec 48) : Statement (.ldkey key) :=
  commandWord_on_row .LDKEY false key nofun fun i h => BitVec.getLsbD_of_ge key i h

theorem rdkey : Statement .rdkey := commandWord_on_row .RDKEY false 0#48 nofun (by simp)

theorem ldst (odd even : BitVec 24) : Statement (.ldst odd even) :=
  commandWord_on_row .LDST false (odd ++ even) nofun fun i h => BitVec.getLsbD_of_ge _ i h

theorem rdst : Statement .rdst := commandWord_on_row .RDST false 0#48 nofun (by simp)

theorem stbit (e : Bool) (inp : BitVec 1) : Statement (.stbit e inp) :=
  commandWord_on_row .STBIT e _ (fun _ => rfl) (operand_fits inp 48)

theorem stbyte (e : Bool) (inp : BitVec 8) : Statement (.stbyte e inp) :=
  commandWord_on_row .STBYTE e _ (fun _ => rfl) (operand_fits inp 48)

theorem stword (e : Bool) (inp : BitVec 32) : Statement (.stword e inp) :=
  commandWord_on_row .STWORD e _ (fun _ => rfl) (operand_fits inp 48)

theorem rbbit (e : Bool) (inp : BitVec 1) : Statement (.rbbit e inp) :=
  commandWord_on_row .RBBIT e _ (fun _ => rfl) (operand_fits inp 48)

theorem rbbyte (e : Bool) (inp : BitVec 8) : Statement (.rbbyte e inp) :=
  commandWord_on_row .RBBYTE e _ (fun _ => rfl) (operand_fits inp 48)

theorem rbword (e : Bool) (inp : BitVec 32) : Statement (.rbword e inp) :=
  commandWord_on_row .RBWORD e _ (fun _ => rfl) (operand_fits inp 48)

theorem filt (x : BitVec 24) : Statement (.filt x) :=
  commandWord_on_row .FILT false _ nofun (operand_fits x 48)

theorem par (x : BitVec 32) : Statement (.par x) :=
  commandWord_on_row .PAR false _ nofun (operand_fits x 48)

theorem swap (x : BitVec 32) : Statement (.swap x) :=
  commandWord_on_row .SWAP false _ nofun (operand_fits x 48)

theorem prld (n : BitVec 32) : Statement (.prld n) :=
  commandWord_on_row .PRLD false _ nofun (operand_fits n 48)

theorem prstep (k : BitVec 32) : Statement (.prstep k) :=
  commandWord_on_row .PRSTEP false _ nofun (operand_fits k 48)

theorem crcinit : Statement .crcinit := commandWord_on_row .CRCINIT false 0#48 nofun (by simp)

theorem crcbyte (b : BitVec 8) : Statement (.crcbyte b) :=
  commandWord_on_row .CRCBYTE false _ nofun (operand_fits b 48)

theorem crcrd : Statement .crcrd := commandWord_on_row .CRCRD false 0#48 nofun (by simp)

theorem crcchk (r : BitVec 16) : Statement (.crcchk r) :=
  commandWord_on_row .CRCCHK false _ nofun (operand_fits r 48)

end Sys2Proof.Laws.OnRow
end

