-- ==== Sys2Proof/Laws/Prng.lean ====
section
/-! SUPPORT. The byte swap, the nonce PRNG, and that `prngAdvance` computes `suc`. -/

namespace Sys2Proof.Laws

open Sys2Proof.Machine

/-! ### Byte swap (rule R120) -/

/-- The byte swap moves bit `i ^ 24` to bit `i`. -/
theorem getLsbD_swap32 (x : BitVec 32) (i : Nat) (hi : i < 32) :
    (swap32 x).getLsbD i = x.getLsbD (i ^^^ 24) := by
  change BitVec.getLsbD (w := 8 + 8 + 8 + 8) (x.extractLsb' 0 8 ++ x.extractLsb' 8 8
    ++ x.extractLsb' 16 8 ++ x.extractLsb' 24 8) i = _
  simp only [BitVec.getLsbD_append, BitVec.getLsbD_extractLsb']
  interval_cases i <;> rfl

@[simp] theorem swap32_swap32 (x : BitVec 32) : swap32 (swap32 x) = x := by
  apply BitVec.eq_of_getLsbD_eq
  intro i hi
  have h : ∀ j : Fin 32, j.val ^^^ 24 < 32 ∧ j.val ^^^ 24 ^^^ 24 = j.val := by decide
  rw [getLsbD_swap32 _ _ hi, getLsbD_swap32 _ _ (h ⟨i, hi⟩).1, (h ⟨i, hi⟩).2]

/-! ### One PRNG iteration (rule R122) -/

theorem getLsbD_prngStep (y : BitVec 32) (i : Nat) :
    (prngStep y).getLsbD i =
      if i < 31 then y.getLsbD (i + 1)
      else (decide (i = 31) && (y.getLsbD 16 ^^ y.getLsbD 18 ^^ y.getLsbD 19 ^^ y.getLsbD 21)) := by
  change BitVec.getLsbD (w := 1 + 31) (BitVec.ofBool (y.getLsbD 16 ^^ y.getLsbD 18 ^^ y.getLsbD 19
    ^^ y.getLsbD 21) ++ y.extractLsb' 1 31) i = _
  rw [BitVec.getLsbD_append, BitVec.getLsbD_extractLsb', BitVec.getLsbD_ofBool, Nat.add_comm 1 i]
  by_cases h : i < 31
  · simp [h]
  · simp only [h, if_false]
    congr 1
    simp only [decide_eq_decide]
    omega

/-- The iteration is linear. -/
theorem prngStep_xor (a b : BitVec 32) : prngStep (a ^^^ b) = prngStep a ^^^ prngStep b := by
  apply BitVec.eq_of_getLsbD_eq
  intro i _
  simp only [BitVec.getLsbD_xor, getLsbD_prngStep]
  split
  · rfl
  · generalize decide (i = 31) = d
    generalize a.getLsbD 16 = a1
    generalize a.getLsbD 18 = a2
    generalize a.getLsbD 19 = a3
    generalize a.getLsbD 21 = a4
    generalize b.getLsbD 16 = b1
    generalize b.getLsbD 18 = b2
    generalize b.getLsbD 19 = b3
    generalize b.getLsbD 21 = b4
    revert d a1 a2 a3 a4 b1 b2 b3 b4
    decide

theorem prngStep_zero : prngStep 0#32 = 0#32 := by decide

/-! ### `suc` (rules R122, R125) -/

@[simp] theorem suc_zero (x : BitVec 32) : suc x 0 = x := by simp [suc]

/-- Additivity (rule R125). -/
theorem suc_add (x : BitVec 32) (a b : Nat) : suc x (a + b) = suc (suc x a) b := by
  simp [suc, Nat.add_comm a b, Function.iterate_add_apply]

/-! ### Repeated squaring -/

theorem applyFrom_xor (cols : List (BitVec 32)) (i : Nat) (a b : BitVec 32) :
    applyFrom i cols (a ^^^ b) = applyFrom i cols a ^^^ applyFrom i cols b := by
  induction cols generalizing i with
  | nil => simp [applyFrom]
  | cons c cs ih =>
    simp only [applyFrom, BitVec.getLsbD_xor, ih]
    generalize applyFrom (i + 1) cs a = x
    generalize applyFrom (i + 1) cs b = y
    apply BitVec.eq_of_getLsbD_eq
    intro j _
    cases a.getLsbD i <;> cases b.getLsbD i <;>
      simp only [Bool.xor_true, Bool.xor_false, Bool.not_true, Bool.not_false, if_true,
        Bool.false_eq_true, if_false, BitVec.getLsbD_xor, BitVec.getLsbD_zero] <;>
      cases c.getLsbD j <;> cases x.getLsbD j <;> cases y.getLsbD j <;> rfl

theorem applyFrom_zero (cols : List (BitVec 32)) (i : Nat) : applyFrom i cols 0#32 = 0#32 := by
  induction cols generalizing i with
  | nil => rfl
  | cons c cs ih => simp [applyFrom, ih]

/-- The columns under a linear map are the columns of the composition. -/
theorem applyFrom_map (g : BitVec 32 → BitVec 32) (h0 : g 0#32 = 0#32)
    (hx : ∀ a b, g (a ^^^ b) = g a ^^^ g b) (cols : List (BitVec 32)) (i : Nat) (y : BitVec 32) :
    applyFrom i (cols.map g) y = g (applyFrom i cols y) := by
  induction cols generalizing i with
  | nil => simp [applyFrom, h0]
  | cons c cs ih =>
    simp only [List.map_cons, applyFrom, ih, hx]
    cases y.getLsbD i <;> simp [h0]

/-- The unit words are the columns of the identity. -/
theorem applyFrom_units (n i : Nat) (y : BitVec 32) (j : Nat) :
    (applyFrom i ((List.range' i n).map (BitVec.twoPow 32)) y).getLsbD j =
      (decide (i ≤ j) && decide (j < i + n) && y.getLsbD j) := by
  induction n generalizing i with
  | zero =>
    have : ¬ (i ≤ j ∧ j < i) := by omega
    by_cases h : i ≤ j
    · simp [applyFrom, show ¬ j < i by omega]
    · simp [applyFrom, h]
  | succ n ih =>
    simp only [List.range'_succ, List.map_cons, applyFrom, BitVec.getLsbD_xor, ih]
    by_cases hj : j < 32
    · rcases Nat.lt_trichotomy i j with h | h | h
      · have e : (j < i + 1 + n) ↔ (j < i + (n + 1)) := by omega
        cases y.getLsbD i <;>
          simp [BitVec.getLsbD_twoPow, show ¬ i = j by omega, show i + 1 ≤ j by omega,
            show i ≤ j by omega, e]
      · subst h
        cases hy : y.getLsbD i <;> simp [hj, show ¬ i + 1 ≤ i by omega]
      · cases y.getLsbD i <;>
          simp [BitVec.getLsbD_twoPow, show ¬ i = j by omega, show ¬ i + 1 ≤ j by omega,
            show ¬ i ≤ j by omega]
    · have hy : y.getLsbD j = false := BitVec.getLsbD_of_ge _ _ (by omega)
      have ht : (BitVec.twoPow 32 i).getLsbD j = false := BitVec.getLsbD_of_ge _ _ (by omega)
      cases y.getLsbD i <;> simp [hy, ht]

/-- The columns of `prngStep` are its columns. -/
theorem applyFrom_prngColumns (y : BitVec 32) : applyFrom 0 prngColumns y = prngStep y := by
  have h : prngColumns = ((List.range' 0 32).map (BitVec.twoPow 32)).map prngStep := by
    rw [List.map_map, prngColumns, List.range_eq_range']; rfl
  rw [h, applyFrom_map prngStep prngStep_zero prngStep_xor]
  congr 1
  apply BitVec.eq_of_getLsbD_eq
  intro j hj
  rw [applyFrom_units]; simp [hj]

/-- Repeated squaring is iteration. -/
theorem applyPower_eq_iterate (n k : Nat) (cols : List (BitVec 32)) (y : BitVec 32)
    (hk : k < 2 ^ n) : applyPower n k cols y = (applyFrom 0 cols)^[k] y := by
  induction n generalizing k cols y with
  | zero =>
    obtain rfl : k = 0 := by simpa using hk
    rfl
  | succ n ih =>
    by_cases h0 : k = 0
    · simp [applyPower, h0]
    have hsq : applyFrom 0 (cols.map (applyFrom 0 cols)) = (applyFrom 0 cols)^[2] := by
      funext z
      rw [applyFrom_map _ (applyFrom_zero cols 0) (applyFrom_xor cols 0)]
      rfl
    rw [applyPower, if_neg h0, ih _ _ _ (by rw [Nat.pow_succ] at hk; omega), hsq,
      ← Function.iterate_mul]
    have hy : (if k % 2 = 1 then applyFrom 0 cols y else y) = (applyFrom 0 cols)^[k % 2] y := by
      rcases Nat.mod_two_eq_zero_or_one k with h | h <;> simp [h]
    rw [hy, ← Function.iterate_add_apply, show 2 * (k / 2) + k % 2 = k by omega]

/-- `prngAdvance` is `suc`, for every word and every 32-bit count (rules R122, R124). -/
theorem prngAdvance_eq_suc (x k : BitVec 32) : prngAdvance x k = suc x k.toNat := by
  have h : applyFrom 0 prngColumns = prngStep := funext applyFrom_prngColumns
  rw [prngAdvance, suc, applyPower_eq_iterate _ _ _ _ k.isLt, h]

end Sys2Proof.Laws
end

