-- ==== Sys2Proof/Laws/Sequences.lean ====
section
/-! SUPPORT. What issuing a command, and a list of commands, can do, said once. -/

namespace Sys2Proof.Laws

open Sys2Proof.Machine

/-- Issuing a command whose word decodes to it returns its result and leaves the state it leaves. -/
theorem issue_of_decode {i : Instr} (h : decode (encode i) = .command i) (s : State) :
    issue i s = some (resultOf i s, (dataAfter i s).answer (resultOf i s)) := by
  rw [issue, step_present_command s h, exec_eq]
  simp

@[simp] theorem issueAll_nil (s : State) : issueAll [] s = some ([], s) := rfl

theorem issueAll_cons (i : Instr) (l : List Instr) (s : State) :
    issueAll (i :: l) s =
      (issue i s).bind fun p => (issueAll l p.2).map fun r => (p.1 :: r.1, r.2) := by
  simp only [issueAll, Option.bind_eq_bind]
  cases issue i s with
  | none => rfl
  | some p => cases h : issueAll l p.2 <;> simp [h]

theorem issueAll_append (l₁ l₂ : List Instr) (s : State) :
    issueAll (l₁ ++ l₂) s =
      (issueAll l₁ s).bind fun p => (issueAll l₂ p.2).map fun r => (p.1 ++ r.1, r.2) := by
  induction l₁ generalizing s with
  | nil => cases h : issueAll l₂ s <;> simp [h]
  | cons i l ih =>
    simp only [List.cons_append, issueAll_cons, ih]
    cases issue i s with
    | none => rfl
    | some p =>
      cases h : issueAll l p.2 with
      | none => simp [h]
      | some r => cases h' : issueAll l₂ r.2 <;> simp [h, h']

end Sys2Proof.Laws
end

