-- ==== Sys2Proof/Machine/Listing.lean ====
section
/-! DEFINITION. How commands and responses are written down, and how a written line is read
(spec/30_encoding.md rules R64 and R66). Nothing of it is behaviour of the core. -/

namespace Sys2Proof.Machine

/-- The hexadecimal digits of `v`, the last `n` of them, most significant first. -/
def hexDigits : (n : Nat) → (v : Nat) → List Char
  | 0, _ => []
  | n + 1, v => hexDigits n (v / 16) ++ [(("0123456789ABCDEF".toList)[v % 16]?).getD '?']

/-- A number as the spec writes it: `0x` and as many digits as its width takes, at least one. -/
def hexText (width v : Nat) : String := "0x" ++ String.ofList (hexDigits (max 1 ((width + 3) / 4)) v)

def mnemonicText : Mnemonic → String
  | .NOP => "NOP" | .LDKEY => "LDKEY" | .RDKEY => "RDKEY" | .LDST => "LDST" | .RDST => "RDST"
  | .STBIT => "STBIT" | .STBYTE => "STBYTE" | .STWORD => "STWORD"
  | .RBBIT => "RBBIT" | .RBBYTE => "RBBYTE" | .RBWORD => "RBWORD"
  | .FILT => "FILT" | .PAR => "PAR" | .SWAP => "SWAP" | .PRLD => "PRLD" | .PRSTEP => "PRSTEP"
  | .CRCINIT => "CRCINIT" | .CRCBYTE => "CRCBYTE" | .CRCRD => "CRCRD" | .CRCCHK => "CRCCHK"

/-- A command as rule R64 writes it: the mnemonic, the suffix `.E` if the flag is set, the operands
separated by a comma. -/
def asmText (i : Instr) : String :=
  let l := i.asmLine
  let ops := (l.operands.zip l.mnemonic.operandWidths).map fun p => hexText p.2 p.1
  mnemonicText l.mnemonic ++ (if l.e then ".E" else "")
    ++ (if ops.isEmpty then "" else " " ++ String.intercalate ", " ops)

/-- A response as rule R66 writes it: `-> Q`, or `-> ILL(cause)` for an illegal command. -/
def responseText (r : ResponseWord) : String :=
  if rspIll r then "-> ILL(" ++ String.ofList (hexDigits 1 (rspCause r).toNat) ++ ")"
  else "-> " ++ hexText 48 (rspQ r).toNat

/-! ### Reading a line (rule R64) -/

def isBlank (c : Char) : Bool := c == ' ' || c == '\t'

/-- The text without blanks at its two ends. -/
def trimBlanks (cs : List Char) : List Char :=
  ((cs.dropWhile isBlank).reverse.dropWhile isBlank).reverse

/-- The value of a digit in the given base; hexadecimal letters may be of either case. -/
def digitValue (base : Nat) (c : Char) : Option Nat :=
  let n := c.toNat
  let v := if 48 ≤ n ∧ n ≤ 57 then some (n - 48)
    else if 65 ≤ n ∧ n ≤ 70 then some (n - 55)
    else if 97 ≤ n ∧ n ≤ 102 then some (n - 87)
    else none
  v.filter (· < base)

def digitsValue (base : Nat) : List Char → Nat → Option Nat
  | [], acc => some acc
  | c :: cs, acc => (digitValue base c).bind fun d => digitsValue base cs (acc * base + d)

/-- A "hexadecimal or decimal number": `0x` and hexadecimal digits, or decimal digits. -/
def numberValue (cs : List Char) : Option Nat :=
  match cs with
  | [] => none
  | ['0', 'x'] => none
  | '0' :: 'x' :: ds => digitsValue 16 ds 0
  | ds => digitsValue 10 ds 0

/-- The pieces of a text between commas. -/
def splitCommas : List Char → List (List Char)
  | [] => [[]]
  | c :: cs =>
    if c = ',' then [] :: splitCommas cs
    else match splitCommas cs with
      | [] => [[c]]
      | p :: ps => (c :: p) :: ps

/-- The operands written after a mnemonic. -/
def operandsOf (cs : List Char) : Option (List Nat) :=
  let text := trimBlanks cs
  if text.isEmpty then some []
  else (splitCommas text).mapM fun p => numberValue (trimBlanks p)

def allMnemonics : List Mnemonic :=
  [.NOP, .LDKEY, .RDKEY, .LDST, .RDST, .STBIT, .STBYTE, .STWORD, .RBBIT, .RBBYTE, .RBWORD,
   .FILT, .PAR, .SWAP, .PRLD, .PRSTEP, .CRCINIT, .CRCBYTE, .CRCRD, .CRCCHK]

/-- The mnemonic a word spells, and whether the suffix `.E` follows it. -/
def mnemonicSpelled (cs : List Char) : Option (Mnemonic × Bool) :=
  (allMnemonics.find? fun m => (mnemonicText m).toList == cs).map (·, false)
    <|> (allMnemonics.find? fun m => (mnemonicText m ++ ".E").toList == cs).map (·, true)

/-- The commands one line writes: none for a line that is blank but for a comment, else one; a line
that is no line of rule R64, or that is not well formed, writes nothing that can be read. -/
def readLine (line : String) : Option (List Instr) :=
  let text := trimBlanks (line.toList.takeWhile (· ≠ ';'))
  if text.isEmpty then some []
  else do
    let (m, e) ← mnemonicSpelled (text.takeWhile fun c => !isBlank c)
    let ops ← operandsOf (text.dropWhile fun c => !isBlank c)
    let i ← assemble ⟨m, e, ops⟩
    return [i]

/-- The commands of a listing, one line after the other. -/
def readListing (lines : List String) : Option (List Instr) :=
  (lines.mapM readLine).map List.flatten

end Sys2Proof.Machine
end

