-- ==== Sys2Proof/Tests/Slice0.lean ====
section
/-! SUPPORT. The model's own tests. Expected words and values are those the spec prints: its rules'
examples and spec/95_test_vectors.md, never the model's answers. The second half shows, for each
statement with hypotheses, something that meets them. -/

namespace Sys2Proof.Tests

open Sys2Proof.Machine Sys2Proof.Statements

-- One theorem after the other: each of many small kernel evaluations would else take a thread.
set_option Elab.async false

/-- The state a step leaves, if it leaves one. -/
def nextOf : Host.Outcome State Fault Refusal → Option State
  | .next s => some s
  | .fault _ => none
  | .refused _ => none

/-- The step that takes the command word `w`. -/
def taking (w : CommandWord) (s : State) : Option State := nextOf (step (s.present w))

/-- The response word to `w`. -/
def answerTo (w : CommandWord) (s : State) : Option (BitVec 64) := (taking w s).bind (·.rsp)

/-- The response and the cipher registers after `w`. -/
def cipherAfter (w : CommandWord) (s : State) : Option (Option (BitVec 64) × BitVec 24 × BitVec 24) :=
  (taking w s).map fun t => (t.rsp, t.odd, t.even)

def withCipher (odd even : BitVec 24) : State := { State.reset with odd := odd, even := even }

/-- The state after `LDKEY 0xA0A1A2A3A4A5` (spec/95_test_vectors.md section 1.4). -/
def keyed : State := withCipher 0x33BB33#24 0x08084C#24

/-! ### Decoding: words from the rules' encodings, OP ‖ RSV ‖ E ‖ ARG -/

theorem test_decode_nop : decode 0x0000000000000000#64 = .command .nop := by decide
theorem test_decode_ldkey :
    decode 0x1000A0A1A2A3A4A5#64 = .command (.ldkey 0xA0A1A2A3A4A5#48) := by decide
theorem test_decode_rdkey : decode 0x1100000000000000#64 = .command .rdkey := by decide
theorem test_decode_ldst :
    decode 0x120033BB3308084C#64 = .command (.ldst 0x33BB33#24 0x08084C#24) := by decide
theorem test_decode_rdst : decode 0x1300000000000000#64 = .command .rdst := by decide
theorem test_decode_stbit : decode 0x2001000000000001#64 = .command (.stbit true 1#1) := by decide
theorem test_decode_stbyte :
    decode 0x210100000000005A#64 = .command (.stbyte true 0x5A#8) := by decide
theorem test_decode_stword :
    decode 0x22010000A1E458CE#64 = .command (.stword true 0xA1E458CE#32) := by decide
theorem test_decode_rbbit : decode 0x2801000000000001#64 = .command (.rbbit true 1#1) := by decide
theorem test_decode_rbbyte :
    decode 0x29010000000000FF#64 = .command (.rbbyte true 0xFF#8) := by decide
theorem test_decode_rbword :
    decode 0x2A0000001EFD8D5E#64 = .command (.rbword false 0x1EFD8D5E#32) := by decide
theorem test_decode_filt : decode 0x3000000000F00002#64 = .command (.filt 0xF00002#24) := by decide
theorem test_decode_par : decode 0x310000007FFFFFFF#64 = .command (.par 0x7FFFFFFF#32) := by decide
theorem test_decode_swap :
    decode 0x3200000012345678#64 = .command (.swap 0x12345678#32) := by decide
theorem test_decode_prld :
    decode 0x4000000082A4166C#64 = .command (.prld 0x82A4166C#32) := by decide
theorem test_decode_prstep : decode 0x4100000000000040#64 = .command (.prstep 64#32) := by decide
theorem test_decode_crcinit : decode 0x5000000000000000#64 = .command .crcinit := by decide
theorem test_decode_crcbyte : decode 0x51000000000000F5#64 = .command (.crcbyte 0xF5#8) := by decide
theorem test_decode_crcrd : decode 0x5200000000000000#64 = .command .crcrd := by decide
theorem test_decode_crcchk :
    decode 0x530000000000F57B#64 = .command (.crcchk 0xF57B#16) := by decide

/-- A word put together bit by bit: OP = 0010 0010, RSV = 000 0000, E = 1, ARG = 16 zeros and the word. -/
theorem test_decode_bits :
    decode (0b00100010#8 ++ 0b0000000#7 ++ 0b1#1 ++ 0b0000000000000000#16
      ++ 0b10100001111001000101100011001110#32) = .command (.stword true 0xA1E458CE#32) := by decide

/-- Illegal words of section 2.7, each cause, and the priority of rule R162. -/
theorem test_decode_unknown_opcode :
    decode 0xFF00000000000000#64 = .illegal .unknownOpcode ∧
    decode 0x1400000000000000#64 = .illegal .unknownOpcode ∧
    decode 0x0100000000000000#64 = .illegal .unknownOpcode ∧
    decode 0x2304FFFFFFFFFFFF#64 = .illegal .unknownOpcode := by decide
theorem test_decode_reserved_bits :
    decode 0x1002000000000001#64 = .illegal .reservedBits ∧
    decode 0x2180000000000000#64 = .illegal .reservedBits ∧
    decode 0x1101000000000000#64 = .illegal .reservedBits ∧
    decode 0x3001000000000002#64 = .illegal .reservedBits ∧
    decode 0x5101000000000060#64 = .illegal .reservedBits ∧
    decode 0x2102000000000100#64 = .illegal .reservedBits := by decide
theorem test_decode_operand_range :
    decode 0x2100000000000100#64 = .illegal .operandRange ∧
    decode 0x2000000000000002#64 = .illegal .operandRange ∧
    decode 0x2200000100000000#64 = .illegal .operandRange ∧
    decode 0x3000000001000000#64 = .illegal .operandRange ∧
    decode 0x3100000100000000#64 = .illegal .operandRange ∧
    decode 0x5300000000010000#64 = .illegal .operandRange ∧
    decode 0x0000000000000001#64 = .illegal .operandRange ∧
    decode 0x1100000000000001#64 = .illegal .operandRange ∧
    decode 0x5000000000000001#64 = .illegal .operandRange ∧
    decode 0x4100000100000000#64 = .illegal .operandRange := by decide

/-- The encoder writes the words rule R64 prints. -/
theorem test_encode_examples :
    encode (.ldkey 0xA0A1A2A3A4A5#48) = 0x1000A0A1A2A3A4A5#64 ∧
    encode (.stword true 0xA1E458CE#32) = 0x22010000A1E458CE#64 ∧
    encode (.ldst 0x33BB33#24 0x08084C#24) = 0x120033BB3308084C#64 ∧
    encode (.prstep 64#32) = 0x4100000000000040#64 ∧
    encode (.crcchk 0x7BF5#16) = 0x5300000000007BF5#64 ∧
    encode .rdkey = 0x1100000000000000#64 := by decide

/-- The largest operand of each command is taken and the next larger one is not (rule R61, case 3). -/
theorem test_operand_boundary (m : Mnemonic) :
    (decode (commandWord m.opcode false (BitVec.ofNat 48 (2 ^ m.operandWidth - 1)))).isIllegal = false ∧
    (m.operandWidth < 48 →
      decode (commandWord m.opcode false (BitVec.ofNat 48 (2 ^ m.operandWidth))) =
        .illegal .operandRange) := by
  cases m <;> decide

/-- The flag alone, and each end of `RSV` alone, on every command (rule R61, case 2). -/
theorem test_reserved_boundary (m : Mnemonic) :
    ((decode (commandWord m.opcode true 0#48)).isIllegal = !m.takesE) ∧
    decode (m.matchBits ||| 0x0002000000000000#64) = .illegal .reservedBits ∧
    decode (m.matchBits ||| 0x0080000000000000#64) = .illegal .reservedBits := by
  cases m <;> decide

/-! ### Well-formed assembler lines -/

/-- Rule R64's lines. -/
theorem test_assemble :
    assemble ⟨.STWORD, true, [0xA1E458CE]⟩ = some (.stword true 0xA1E458CE#32) ∧
    assemble ⟨.LDST, false, [0x33BB33, 0x08084C]⟩ = some (.ldst 0x33BB33#24 0x08084C#24) ∧
    assemble ⟨.PRSTEP, false, [64]⟩ = some (.prstep 64#32) ∧
    assemble ⟨.RDKEY, false, []⟩ = some .rdkey := by decide

/-- `LDKEY` with two operands: `countOk` refuses, the other checks do not. -/
theorem test_wellformed_count :
    (⟨.LDKEY, false, [1, 2]⟩ : AsmLine).countOk = false ∧
    (⟨.LDKEY, false, [1, 2]⟩ : AsmLine).rangeOk = true ∧
    (⟨.LDKEY, false, [1, 2]⟩ : AsmLine).flagOk = true ∧
    assemble ⟨.LDKEY, false, [1, 2]⟩ = none := by decide

/-- `STBYTE 0x100`: `rangeOk` refuses. -/
theorem test_wellformed_range :
    (⟨.STBYTE, false, [0x100]⟩ : AsmLine).rangeOk = false ∧
    (⟨.STBYTE, false, [0x100]⟩ : AsmLine).countOk = true ∧
    (⟨.STBYTE, false, [0x100]⟩ : AsmLine).flagOk = true ∧
    assemble ⟨.STBYTE, false, [0x100]⟩ = none := by decide

/-- `RDKEY.E`: `flagOk` refuses. -/
theorem test_wellformed_flag :
    (⟨.RDKEY, true, []⟩ : AsmLine).flagOk = false ∧
    (⟨.RDKEY, true, []⟩ : AsmLine).countOk = true ∧
    (⟨.RDKEY, true, []⟩ : AsmLine).rangeOk = true ∧
    assemble ⟨.RDKEY, true, []⟩ = none := by decide

/-- Lines and responses as rules R64 and R66 write them. -/
theorem test_listing :
    asmText (.stword true 0xA1E458CE#32) = "STWORD.E 0xA1E458CE" ∧
    asmText (.ldst 0x33BB33#24 0x08084C#24) = "LDST 0x33BB33, 0x08084C" ∧
    asmText .rdkey = "RDKEY" ∧
    responseText 0xC200000000000000#64 = "-> ILL(2)" := by decide +kernel

/-- Lines as rule R64 writes them, read; a comment; two lines that are no command. -/
theorem test_read_lines :
    readListing ["LDKEY 0xA0A1A2A3A4A5 ; the example key", "; nothing", "STWORD.E 0xA1E458CE",
        "LDST 0x33BB33, 0x08084C", "PRSTEP 64", "RDKEY"] =
      some [.ldkey 0xA0A1A2A3A4A5#48, .stword true 0xA1E458CE#32, .ldst 0x33BB33#24 0x08084C#24,
        .prstep 64#32, .rdkey] ∧
    readLine "STBYTE 0x100" = none ∧ readLine "RDKEY.E" = none := by decide +kernel

/-! ### One step of each command (spec/95_test_vectors.md) -/

theorem test_nop : taking 0x0000000000000000#64 keyed = some { keyed with rsp := some 0#64 } := by
  decide +kernel

/-- Section 2.1: key bit 40 is `EVEN[23]`; and a key of no symmetry. -/
theorem test_ldkey_bit : cipherAfter 0x1000010000000000#64 keyed = some (some 0#64, 0x000000#24, 0x800000#24) := by
  decide +kernel
theorem test_ldkey : cipherAfter 0x1000123456789ABC#64 keyed = some (some 0#64, 0x8286D7#24, 0x267326#24) := by
  decide +kernel
theorem test_rdkey : answerTo 0x1100000000000000#64 keyed = some 0x0000A0A1A2A3A4A5#64 := by
  decide +kernel
theorem test_rdkey_other :
    answerTo 0x1100000000000000#64 (withCipher 0x8286D7#24 0x267326#24) =
      some 0x0000123456789ABC#64 := by decide +kernel
theorem test_ldst :
    cipherAfter 0x1200000001000000#64 keyed = some (some 0#64, 0x000001#24, 0x000000#24) := by
  decide +kernel
theorem test_rdst : answerTo 0x1300000000000000#64 keyed = some 0x000033BB3308084C#64 := by
  decide +kernel

/-- Section 2.2. -/
theorem test_stbit :
    cipherAfter 0x2000000000000001#64 keyed = some (some 0#64, 0x101099#24, 0x33BB33#24) := by
  decide +kernel
theorem test_stbit_e :
    cipherAfter 0x2001000000000000#64 (withCipher 0x404262#24 0xCEECCE#24) =
      some (some 1#64, 0x9DD99D#24, 0x404262#24) := by decide +kernel
theorem test_rbbit :
    cipherAfter 0x2800000000000000#64 (withCipher 0xFFFFFF#24 0xFFFFFF#24) =
      some (some 1#64, 0xFFFFFF#24, 0x7FFFFF#24) := by decide +kernel
theorem test_rbbit_e :
    cipherAfter 0x2801000000000000#64 (withCipher 0x9DD99D#24 0x404262#24) =
      some (some 1#64, 0x404262#24, 0xCEECCE#24) := by decide +kernel

/-- Section 2.3; the last is the mismatched rollback of rule R186. -/
theorem test_stbyte :
    cipherAfter 0x2100000000000001#64 keyed = some (some 0x5A#64, 0x3BB33A#24, 0x8084CD#24) := by
  decide +kernel
theorem test_stbyte_e :
    cipherAfter 0x21010000000000FF#64 keyed = some (some 0x5A#64, 0x3BB338#24, 0x8084C9#24) := by
  decide +kernel
theorem test_rbbyte :
    cipherAfter 0x2901000000000000#64 (withCipher 0x3BB33B#24 0x8084C7#24) =
      some (some 0x70#64, 0x33BB33#24, 0x08084C#24) := by decide +kernel
theorem test_rbbyte_mismatched :
    cipherAfter 0x2900000000000000#64 (withCipher 0x3BB33B#24 0x8084C7#24) =
      some (some 0x70#64, 0x93BB33#24, 0xB8084C#24) := by decide +kernel

/-- Section 2.4. -/
theorem test_stword :
    cipherAfter 0x2200000001000000#64 State.reset =
      some (some 0x885B420C#64, 0x003B2C#24, 0x00978A#24) := by decide +kernel
theorem test_stword_e :
    cipherAfter 0x22010000DEADBEEF#64 (withCipher 0x8286D7#24 0x267326#24) =
      some (some 0x62A62A12#64, 0xD7CB36#24, 0x26BCDA#24) := by decide +kernel
theorem test_rbword :
    cipherAfter 0x2A0000001EFD8D5E#64 (withCipher 0xFFFD66#24 0xFF7FAE#24) =
      some (some 0xFF77FF5A#64, 0xFFFFFF#24, 0xFFFFFF#24) := by decide +kernel
theorem test_rbword_e :
    cipherAfter 0x2A01000012345678#64 (withCipher 0x332FA9#24 0x4C4E51#24) =
      some (some 0x70BDFA91#64, 0x33BB33#24, 0x08084C#24) := by decide +kernel

/-- Section 2.7. -/
theorem test_filt : answerTo 0x3000000000F00002#64 keyed = some 1#64 := by decide +kernel
theorem test_filt_zero : answerTo 0x30000000000F0F0F#64 keyed = some 0#64 := by decide +kernel
theorem test_par : answerTo 0x3100000000000007#64 keyed = some 1#64 := by decide +kernel
theorem test_par_even : answerTo 0x3100000000870804#64 keyed = some 0#64 := by decide +kernel

/-- Section 2.5. -/
theorem test_swap : answerTo 0x32000000DEADBEEF#64 keyed = some 0xEFBEADDE#64 := by decide +kernel
theorem test_prld :
    (taking 0x40000000DEADBEEF#64 keyed).map (·.pr) = some 0xDEADBEEF#32 := by decide +kernel
theorem test_prstep :
    (taking 0x4100000000000005#64 { keyed with pr := 0x00001234#32 }).map (fun t => (t.pr, t.rsp)) =
      some (0x0090A0A1#32, some 0x0090A0A1#64) := by decide +kernel
/-- The largest count. -/
theorem test_prstep_max :
    answerTo 0x41000000FFFFFFFF#64 { keyed with pr := 0x12345678#32 } = some 0x95B65678#64 := by
  decide +kernel

/-- Section 2.6 and program P3. -/
theorem test_crcinit :
    (taking 0x5000000000000000#64 { keyed with crc := 0x0000#16 }).map (·.crc) = some 0x6363#16 := by
  decide +kernel
theorem test_crcbyte :
    (taking 0x51000000000000FF#64 State.reset).map (·.crc) = some 0x5E86#16 := by decide +kernel
theorem test_crcbyte_residue :
    (taking 0x51000000000000F5#64 { keyed with crc := 0x7BF5#16 }).map (·.crc) = some 0x007B#16 := by
  decide +kernel
theorem test_crcrd :
    answerTo 0x5200000000000000#64 { keyed with crc := 0x7BF5#16 } = some 0x7BF5#64 := by
  decide +kernel
theorem test_crcchk :
    answerTo 0x5300000000007BF5#64 { keyed with crc := 0x7BF5#16 } = some 1#64 := by decide +kernel
theorem test_crcchk_swapped :
    answerTo 0x530000000000F57B#64 { keyed with crc := 0x7BF5#16 } = some 0#64 := by decide +kernel

/-! ### The exception, reset, fetch -/

/-- Program P5, commands 2 to 5. -/
theorem test_illegal :
    taking 0xFF00000000000000#64 keyed =
      some { keyed with err := true, rsp := some 0xC100000000000000#64 } ∧
    taking 0x1101000000000000#64 { keyed with err := true } =
      some { keyed with err := true, rsp := some 0xC200000000000000#64 } ∧
    taking 0x2100000000000100#64 { keyed with err := true } =
      some { keyed with err := true, rsp := some 0xC300000000000000#64 } := by decide +kernel
theorem test_legal_after_illegal :
    answerTo 0x1100000000000000#64 { keyed with err := true } = some 0x8000A0A1A2A3A4A5#64 := by
  decide +kernel
theorem test_reset :
    nextOf (step { keyed with err := true, crc := 0#16, inputs := [.reset] }) = some State.reset := by
  decide +kernel

/-- The word placed for the next step is the one that runs, ahead of what is already presented. -/
theorem test_with_fetch_word :
    nextOf (step ({ State.reset with inputs := [.reset] }.withFetchWord 64 0x1000A0A1A2A3A4A5)) =
      some { keyed with inputs := [.reset], rsp := some 0#64 } ∧
    decodeTableWord 64 0x1000A0A1A2A3A4A5 = some (.ldkey 0xA0A1A2A3A4A5#48) ∧
    decodeTableWord 64 0xFF00000000000000 = none := by decide +kernel

/-! ### Sequences: the first exit of `NONCEDIST`, the frames -/

theorem test_authframe :
    (authframe keyTypeB 0x00#8 State.reset).map (·.1) = some [0x61#8, 0x00#8, 0x2D#8, 0x62#8] := by
  decide +kernel

/-! ### Something meets the hypotheses of each statement -/

/-- A state with the given inputs to come. -/
def presenting (inputs : List Input) : State := { keyed with inputs := inputs }

theorem witness_EncodeOfDecode :
    decode 0x22010000FFFFFFFF#64 = .command (.stword true 0xFFFFFFFF#32) := by decide

/-- The row of a word, one row only, and a word on no row. -/
theorem witness_MatchMaskSelectsCommand :
    0x3000000000F00002#64 &&& (tableRow .FILT).2 = (tableRow .FILT).1 ∧
    (∀ m, 0x3000000001000000#64 &&& (tableRow m).2 ≠ (tableRow m).1) := by
  refine ⟨by decide, fun m => ?_⟩
  cases m <;> decide

/-- Each right-hand side of `IllegalCausesInOrder` holds of some word. -/
theorem witness_IllegalCausesInOrder :
    (∀ m : Mnemonic, (0x2304FFFFFFFFFFFF#64 : CommandWord).extractLsb' 56 8 ≠ m.opcode) ∧
    ((0x2102000000000100#64 : CommandWord).extractLsb' 56 8 = Mnemonic.STBYTE.opcode ∧
      (0x2102000000000100#64 : CommandWord).extractLsb' 49 7 ≠ 0#7) ∧
    ((0x2100000000000100#64 : CommandWord).extractLsb' 56 8 = Mnemonic.STBYTE.opcode ∧
      (0x2100000000000100#64 : CommandWord).extractLsb' 49 7 = 0#7 ∧
      2 ^ Mnemonic.STBYTE.operandWidth ≤
        ((0x2100000000000100#64 : CommandWord).extractLsb' 0 48).toNat) := by
  refine ⟨fun m => ?_, by decide, by decide⟩
  cases m <;> decide

/-- `EncodedAs` speaks about some word for every opcode: legal at the largest operand, refused for a
reserved bit, refused for the next larger operand. -/
theorem witness_EncodedAs (m : Mnemonic) :
    (commandWord m.opcode false (BitVec.ofNat 48 (2 ^ m.operandWidth - 1))).extractLsb' 56 8 =
      m.opcode ∧
    (commandWord m.opcode false (BitVec.ofNat 48 (2 ^ m.operandWidth))).extractLsb' 56 8 =
      m.opcode ∧
    (m.matchBits ||| 0x0002000000000000#64).extractLsb' 56 8 = m.opcode := by
  cases m <;> decide

theorem witness_StepRunsDecodedCommand :
    (presenting [.command 0x1100000000000000#64, .reset]).inputs =
      .command 0x1100000000000000#64 :: [.reset] ∧
    decode 0x1100000000000000#64 = .command .rdkey := by decide

theorem witness_IllegalCommandEffect :
    (presenting [.command 0xFF00000000000000#64]).inputs = .command 0xFF00000000000000#64 :: [] ∧
    decode 0xFF00000000000000#64 = .illegal .unknownOpcode ∧
    decode 0x1101000000000000#64 = .illegal .reservedBits ∧
    decode 0x2100000000000100#64 = .illegal .operandRange := by decide

/-- An illegal word before a legal one and before an illegal one; a state with `ERR` set and a step. -/
theorem witness_AfterExceptionCommandsRun :
    (presenting [.command 0xFF00000000000000#64, .command 0x1100000000000000#64]).inputs =
      .command 0xFF00000000000000#64 :: .command 0x1100000000000000#64 :: [] ∧
    decode 0xFF00000000000000#64 = .illegal .unknownOpcode ∧
    decode 0x1100000000000000#64 = .command .rdkey ∧
    decode 0x1101000000000000#64 = .illegal .reservedBits ∧
    (nextOf (step { presenting [.command 0#64] with err := true })).map (·.err) = some true := by
  decide +kernel

theorem witness_ResponseWordFields :
    (presenting [.command 0x5300000000010000#64]).inputs = .command 0x5300000000010000#64 :: [] ∧
    decode 0x5300000000010000#64 = .illegal .operandRange ∧
    (presenting [.command 0x5300000000006363#64]).inputs = .command 0x5300000000006363#64 :: [] ∧
    decode 0x5300000000006363#64 = .command (.crcchk 0x6363#16) ∧
    hasNoResult (Instr.mnemonic .crcinit) = true := by decide

/-- A step in each of the cases of the first clause. -/
theorem witness_ErrFlagRule :
    (nextOf (step (presenting []))).map (·.err) = some false ∧
    (nextOf (step { presenting [.reset] with err := true })).map (·.err) = some false ∧
    (nextOf (step (presenting [.command 0x5000000000000000#64]))).map (·.err) = some false ∧
    (nextOf (step (presenting [.command 0x5000000000000001#64]))).map (·.err) = some true := by
  decide +kernel

theorem witness_ResetClearsErrAndKey :
    (presenting [.reset]).inputs = .reset :: [] ∧
    (nextOf (step { presenting [.reset] with err := true })).map (·.err) = some false := by
  decide +kernel

/-- Two states that differ where `CRCRD` does not read, agree where it does. -/
theorem witness_AccessMatrix :
    exec .crcrd keyed = .next (keyed.answer 0x6363#48) ∧
    exec .crcrd State.reset = .next (State.reset.answer 0x6363#48) ∧
    (readsCipher (Instr.mnemonic .crcrd) = true →
      keyed.odd = State.reset.odd ∧ keyed.even = State.reset.even) ∧
    (readsPr (Instr.mnemonic .crcrd) = true → keyed.pr = State.reset.pr) ∧
    (readsCrc (Instr.mnemonic .crcrd) = true → keyed.crc = State.reset.crc) :=
  ⟨rfl, rfl, by decide, by decide, by decide⟩

/-- The hypotheses of the third and fourth clauses of `AccessMatrix`. -/
theorem witness_AccessMatrix_groups :
    readsCipher .RBWORD = true ∧ readsPr .PRSTEP = true ∧ readsCrc .CRCBYTE = true ∧
    step (presenting [.command 0xFF00000000000000#64]) =
      .next (takeIllegal .unknownOpcode (presenting [])) := ⟨rfl, rfl, rfl, rfl⟩

theorem witness_EveryCommandAnswered :
    (presenting [.command 0x41000000FFFFFFFF#64]).inputs = .command 0x41000000FFFFFFFF#64 :: [] := rfl

/-- A response is at the port, and the next step is an illegal command. -/
theorem witness_StepKeepsResponsePort :
    ResponsePortOk ((presenting [.command 0xFF00000000000000#64]).answer 5#48) ∧
    step ((presenting [.command 0xFF00000000000000#64]).answer 5#48) =
      .next (takeIllegal .unknownOpcode ((presenting []).answer 5#48)) := by
  refine ⟨?_, rfl⟩
  rintro r h
  cases h
  exact ⟨by decide, by decide, by decide, by decide, by decide⟩

theorem witness_StepSeesRegistersAndInputOnly :
    (presenting [.reset, .command 0#64]).inputs = .reset :: [.command 0#64] := rfl

theorem witness_WaitsWithoutInput : (presenting []).inputs = [] := rfl

/-- A run that is safe, and the two ways of not being so. -/
theorem witness_SafeRunIffAllLegal :
    (keyed.err = false ∧ ∀ w ∈ [0x1100000000000000#64, 0x5000000000000000#64], legalWord w = true) ∧
    legalWord 0x1101000000000000#64 = false ∧ ({ keyed with err := true } : State).err = true := by
  refine ⟨⟨rfl, ?_⟩, by decide, rfl⟩
  simp only [List.mem_cons, List.not_mem_nil, or_false, forall_eq_or_imp, forall_eq]
  decide

theorem witness_StbitEffect : filter20 ((0x33BB33#24).setWidth 20) = false := by decide +kernel

theorem witness_RollbackComposition :
    ∀ i ∈ [Instr.stbit true 1#1, .stbyte false 0x5A#8, .stword true 0x12345678#32],
      isForward i = true := by simp [isForward]

/-- The boundary: the sum is the largest count. -/
theorem witness_PrngAdditivity :
    (0xFFFFFFFE#32).toNat + (1#32).toNat < 2 ^ 32 := by decide +kernel

theorem witness_PrngPeriod :
    (16 ≤ 16 ∧ (0x01020304#32).extractLsb' 0 16 ≠ 0#16) ∧
    (16 ≤ 16 ∧ (0x12340000#32).extractLsb' 0 16 = 0#16) ∧ 16 ≤ (16#32).toNat := by decide +kernel

theorem witness_EncbytesSymmetric : [0x30#8, 0x04#8].length = [0xFF#8, 0x00#8].length := rfl

/-- The nonces of section 1.8 that never meet are `0x00000001` and `0x00000000`; here the easier pair: the
zero word is a fixed point of `suc` (section 2.5), and so never reaches `0x00000001`. -/
theorem witness_NonceDistanceCounts :
    (1 < 65536 ∧ ∀ j < 1, suc 0x12345678#32 j ≠ suc 0x12345678#32 1) ∧
    (∀ k < 65536, suc 0x00000000#32 k ≠ 0x00000001#32) := by
  refine ⟨⟨by omega, ?_⟩, fun k _ => ?_⟩
  · intro j hj
    obtain rfl : j = 0 := by omega
    decide +kernel
  · have h : prngStep^[k] 0#32 = 0#32 := Function.iterate_fixed Laws.prngStep_zero k
    have hs : swap32 0#32 = 0#32 := by decide +kernel
    rw [suc, hs, h, hs]
    decide +kernel

end Sys2Proof.Tests
end

section
/-! The scope's statement about a core to which nothing is presented (spec/00_scope.md rule R6). -/

namespace Sys2Proof.Proofs

open Sys2Proof.Machine

/-- The port offers no input exactly when the host has none left to present. -/
@[simp] theorem fetch_eq_none_iff (s : State) : fetch s = none ↔ s.inputs = [] := by
  unfold fetch
  cases s.inputs with
  | nil => simp
  | cons x rest => simp

/-- When the port offers no input, a step changes nothing. -/
theorem step_of_fetch_eq_none {s : State} (h : fetch s = none) : step s = .next s := by
  simp only [step, h]

/-- Settles O19: with no input left the port offers none, and then a step changes nothing. -/
theorem waitsWithoutInput : Obligations.WaitsWithoutInput := by
  intro s hnil
  exact step_of_fetch_eq_none ((fetch_eq_none_iff s).mpr hnil)

end Sys2Proof.Proofs
end

section
/-! Taking one input (spec/20_memory.md rule R50): what a step does to each register and to the port, once
for every input, whatever it is. -/

namespace Sys2Proof.Proofs

open Sys2Proof.Machine Sys2Proof.Laws

/-- The state after the core has taken the input `x` in `s`. -/
def afterInput (x : Input) (s : State) : State :=
  match x with
  | .reset => takeReset s
  | .command w =>
    match decode w with
    | .command i => (dataAfter i s).answer (resultOf i s)
    | .illegal c => takeIllegal c s

@[simp] theorem afterInput_reset (s : State) : afterInput .reset s = takeReset s := rfl

theorem afterInput_of_legal {w : CommandWord} {i : Instr} (h : decode w = .command i) (s : State) :
    afterInput (.command w) s = (dataAfter i s).answer (resultOf i s) := by
  simp only [afterInput, h]

theorem afterInput_of_illegal {w : CommandWord} {c : Cause} (h : decode w = .illegal c) (s : State) :
    afterInput (.command w) s = takeIllegal c s := by
  simp only [afterInput, h]

/-- With an input at the port, the step takes exactly that input, and it always completes. -/
theorem step_of_inputs_cons {s : State} {x : Input} {rest : List Input} (h : s.inputs = x :: rest) :
    step s = .next (afterInput x { s with inputs := rest }) := by
  have hfetch : fetch s = some (x, { s with inputs := rest }) := by simp only [fetch, h]
  cases x with
  | reset => simp only [step, hfetch, afterInput_reset]
  | command w =>
    cases hd : decode w with
    | command i => simp only [step, hfetch, hd, exec_eq, afterInput_of_legal hd]
    | illegal c => simp only [step, hfetch, hd, afterInput_of_illegal hd]

@[simp] theorem afterInput_inputs (x : Input) (s : State) : (afterInput x s).inputs = s.inputs := by
  cases x with
  | reset => rfl
  | command w =>
    cases hd : decode w with
    | command i => simp [afterInput_of_legal hd]
    | illegal c => simp [afterInput_of_illegal hd]

/-- A command word leaves `ERR` as it is if it is legal, and sets it if not (rule R27). -/
@[simp] theorem afterInput_command_err (w : CommandWord) (s : State) :
    (afterInput (.command w) s).err = (s.err || (decode w).isIllegal) := by
  cases hd : decode w with
  | command i => simp [afterInput_of_legal hd, Decoded.isIllegal]
  | illegal c => simp [afterInput_of_illegal hd, Decoded.isIllegal]

/-- Every command word is answered, and bit 63 of the answer is `ERR` (rules R27, R56). -/
theorem afterInput_command_rsp (w : CommandWord) (s : State) :
    ∃ r, (afterInput (.command w) s).rsp = some r ∧
      r.getLsbD 63 = (afterInput (.command w) s).err := by
  cases hd : decode w with
  | command i =>
    rw [afterInput_of_legal hd]
    exact ⟨_, answer_rsp _ _, rspErr_response _ _ _ _⟩
  | illegal c =>
    rw [afterInput_of_illegal hd]
    exact ⟨_, takeIllegal_rsp _ _, rspErr_response _ _ _ _⟩

/-! ### What a command cannot see: `ERR` and the port -/

/-- What a command writes depends neither on `ERR` nor on the port, and it writes neither. -/
theorem dataAfter_withPort (i : Instr) (s : State) (b : Bool) (l : List Input)
    (r : Option (BitVec 64)) :
    dataAfter i { s with err := b, inputs := l, rsp := r } =
      { dataAfter i s with err := b, inputs := l, rsp := r } := by
  cases i <;> rfl

/-- The result of a command depends neither on `ERR` nor on the port. -/
theorem resultOf_withPort (i : Instr) (s : State) (b : Bool) (l : List Input)
    (r : Option (BitVec 64)) :
    resultOf i { s with err := b, inputs := l, rsp := r } = resultOf i s := by
  cases i <;> rfl

/-- Taking an input depends neither on the last response nor on what is presented later. -/
theorem afterInput_withPort (x : Input) (s : State) (l : List Input) (r : Option (BitVec 64)) :
    afterInput x { s with inputs := l, rsp := r } = { afterInput x s with inputs := l } := by
  cases x with
  | reset => rfl
  | command w =>
    cases hd : decode w with
    | command i =>
      rw [afterInput_of_legal hd, afterInput_of_legal hd, dataAfter_withPort, resultOf_withPort]
      simp [State.answer]
    | illegal c => rw [afterInput_of_illegal hd, afterInput_of_illegal hd]; rfl

/-- Settles O18: the step takes the one input at the port, and taking it sees the registers only. -/
theorem stepSeesRegistersAndInputOnly : Obligations.StepSeesRegistersAndInputOnly := by
  intro s x rest rest' r hs
  refine ⟨_, step_of_inputs_cons hs, ?_⟩
  rw [step_of_inputs_cons (x := x) (rest := rest') rfl]
  exact congrArg _ (afterInput_withPort x { s with inputs := rest } rest' r)

/-- Settles O12: the values are those of `State.reset`; the first response reports the `ERR` that the
first word leaves. -/
theorem resetStateValues : Obligations.ResetStateValues := by
  refine ⟨rfl, rfl, rfl, rfl, rfl, fun w => ?_⟩
  obtain ⟨r, hrsp, herr⟩ := afterInput_command_rsp w State.reset
  refine ⟨_, r, step_of_inputs_cons (present_inputs _ w), hrsp, ?_⟩
  rw [herr, afterInput_command_err]
  exact Bool.false_or _

end Sys2Proof.Proofs
end

section
/-! `ERR` (spec/10_state.md rule R27): which step changes it, and what it changes. -/

namespace Sys2Proof.Proofs

open Sys2Proof.Machine Sys2Proof.Laws

/-- `ERR` after a step, by the input the step takes. -/
theorem step_err {s t : State} (h : step s = .next t) :
    t.err = match s.inputs with
      | [] => s.err
      | .reset :: _ => false
      | .command w :: _ => s.err || (decode w).isIllegal := by
  cases hs : s.inputs with
  | nil =>
    rw [waitsWithoutInput s hs] at h
    cases h; rfl
  | cons x rest =>
    rw [step_of_inputs_cons hs] at h
    cases h
    cases x with
    | reset => rfl
    | command w => exact afterInput_command_err w _

/-- A command writes the same data and returns the same result whatever `ERR` is. -/
theorem exec_withErr (i : Instr) (s : State) (b : Bool) :
    exec i { s with err := b } =
      .next { dataAfter i s with
        err := b, rsp := some (response b false 0#2 (resultOf i s)) } := by
  have hdata := dataAfter_withPort i s b s.inputs s.rsp
  have hres := resultOf_withPort i s b s.inputs s.rsp
  rw [exec_eq, hdata, hres, ← dataAfter_inputs i s]
  rfl

/-- Settles O11, from what a step does to `ERR`, what an answer reports, and what a command sees. -/
theorem errFlagRule : Obligations.ErrFlagRule := by
  refine ⟨fun s t h => step_err h, fun s t w rest hs h => ?_, fun i s b => ?_⟩
  · rw [step_of_inputs_cons hs] at h
    cases h
    obtain ⟨r, hrsp, herr⟩ := afterInput_command_rsp w { s with inputs := rest }
    rw [hrsp, Option.map_some, herr]
  · exact ⟨dataAfter i s, resultOf i s, exec_withErr i s s.err, exec_withErr i s b⟩

/-! ### Runs -/

theorem isIllegal_eq_false_iff (w : CommandWord) :
    (decode w).isIllegal = false ↔ legalWord w = true := by
  simp [legalWord]

/-- A step with a list of words at the port takes the first and leaves the others. -/
theorem step_withCommands_cons (w : CommandWord) (ws : List CommandWord) (s : State) :
    step (s.withCommands (w :: ws)) = .next ((afterInput (.command w) s).withCommands ws) := by
  have hin : (s.withCommands (w :: ws)).inputs = .command w :: ws.map .command := rfl
  rw [step_of_inputs_cons hin]
  exact congrArg _ (afterInput_withPort (.command w) s (ws.map .command) s.rsp)

/-- A run whose first step completes is that step and the rest of the run. -/
theorem run_succ_of_step {M : Host.Core} {s t : M.State} (h : M.step s = .next t) (k : Nat) :
    M.run (k + 1) s = M.run k t := by
  rw [Host.Core.run, h]

/-- A run over a list of words takes the first word and goes on with the others. -/
theorem run_withCommands_cons (w : CommandWord) (ws : List CommandWord) (s : State) :
    core.run (w :: ws).length (s.withCommands (w :: ws)) =
      core.run ws.length ((afterInput (.command w) s).withCommands ws) :=
  run_succ_of_step (M := core) (s := s.withCommands (w :: ws))
    (step_withCommands_cons w ws s) ws.length

/-- A run over a list of words completes with every word taken, and what `ERR` is at its end. -/
theorem run_withCommands (ws : List CommandWord) (s : State) :
    ∃ t, core.run ws.length (s.withCommands ws) = .next t ∧ t.inputs = [] ∧
      (t.err = false ↔ s.err = false ∧ ∀ w ∈ ws, legalWord w = true) := by
  induction ws generalizing s with
  | nil => exact ⟨s.withCommands [], rfl, rfl, by simp [State.withCommands]⟩
  | cons w ws ih =>
    obtain ⟨t, hrun, hin, herr⟩ := ih (afterInput (.command w) s)
    refine ⟨t, (run_withCommands_cons w ws s).trans hrun, hin, ?_⟩
    rw [herr, afterInput_command_err, Bool.or_eq_false_iff, isIllegal_eq_false_iff,
      List.forall_mem_cons, and_assoc]

/-- Settles O20: the run over the words ends in one state, which is the one `SafeRun` speaks of. -/
theorem safeRunIffAllLegal : Obligations.SafeRunIffAllLegal := by
  intro ws s
  obtain ⟨t, hrun, hin, herr⟩ := run_withCommands ws s
  refine ⟨⟨t, hrun, hin⟩, ?_⟩
  rw [← herr, SafeRun, hrun]
  constructor
  · rintro ⟨u, hu, hsafe⟩
    cases hu
    exact hsafe
  · exact fun hsafe => ⟨t, rfl, hsafe⟩

end Sys2Proof.Proofs
end

section
/-! The access matrix (spec/10_state.md rule R33): the frame of each column, and what each command's
results depend on. -/

namespace Sys2Proof.Proofs

open Sys2Proof.Machine Sys2Proof.Laws Sys2Proof.Statements

/-- The two cipher registers are one group. -/
theorem cipher_eq_iff (s s' : State) : s.cipher = s'.cipher ↔ s.odd = s'.odd ∧ s.even = s'.even := by
  simp [State.cipher]

/-! ### The columns marked `w` -/

/-- A command whose row does not mark the cipher registers `w` leaves them alone. -/
theorem dataAfter_cipher_of_not_writes (i : Instr) (s : State)
    (h : writesCipher i.mnemonic = false) : (dataAfter i s).cipher = s.cipher := by
  cases i with
  | ldkey | ldst | stbit | stbyte | stword | rbbit | rbbyte | rbword => cases h
  | _ => rfl

/-- A command whose row does not mark `PR` `w` leaves it alone. -/
theorem dataAfter_pr_of_not_writes (i : Instr) (s : State)
    (h : writesPr i.mnemonic = false) : (dataAfter i s).pr = s.pr := by
  cases i with
  | prld | prstep => cases h
  | _ => rfl

/-- A command whose row does not mark `CRC` `w` leaves it alone. -/
theorem dataAfter_crc_of_not_writes (i : Instr) (s : State)
    (h : writesCrc i.mnemonic = false) : (dataAfter i s).crc = s.crc := by
  cases i with
  | crcinit | crcbyte => cases h
  | _ => rfl

/-! ### The columns marked `r` -/

/-- Two states agree on every register group that the row of `i` marks `r`. -/
structure AgreeOnRead (i : Instr) (s s' : State) : Prop where
  cipher : readsCipher i.mnemonic = true → s.cipher = s'.cipher
  pr : readsPr i.mnemonic = true → s.pr = s'.pr
  crc : readsCrc i.mnemonic = true → s.crc = s'.crc

section
variable {i : Instr} {s s' : State} (h : AgreeOnRead i s s')
include h

/-- The result of a command depends only on the groups its row marks `r`. -/
theorem resultOf_eq_of_agreeOnRead : resultOf i s = resultOf i s' := by
  cases i with
  | rdkey | stbit | stbyte | stword | rbbit | rbbyte | rbword => simp only [resultOf, h.cipher rfl]
  | rdst =>
    obtain ⟨hodd, heven⟩ := (cipher_eq_iff s s').mp (h.cipher rfl)
    simp only [resultOf, hodd, heven]
  | prstep => simp only [resultOf, h.pr rfl]
  | crcrd | crcchk => simp only [resultOf, h.crc rfl]
  | _ => rfl

/-- What a command writes to the cipher registers depends only on the groups its row marks `r`. -/
theorem dataAfter_cipher_eq_of_agreeOnRead (hw : writesCipher i.mnemonic = true) :
    (dataAfter i s).cipher = (dataAfter i s').cipher := by
  cases i with
  | ldkey | ldst => rfl
  | stbit | stbyte | stword | rbbit | rbbyte | rbword =>
    simp only [dataAfter, setCipher_cipher, h.cipher rfl]
  | _ => cases hw

/-- What a command writes to `PR` depends only on the groups its row marks `r`. -/
theorem dataAfter_pr_eq_of_agreeOnRead (hw : writesPr i.mnemonic = true) :
    (dataAfter i s).pr = (dataAfter i s').pr := by
  cases i with
  | prld => rfl
  | prstep => simp only [dataAfter, h.pr rfl]
  | _ => cases hw

/-- What a command writes to `CRC` depends only on the groups its row marks `r`. -/
theorem dataAfter_crc_eq_of_agreeOnRead (hw : writesCrc i.mnemonic = true) :
    (dataAfter i s).crc = (dataAfter i s').crc := by
  cases i with
  | crcinit => rfl
  | crcbyte => simp only [dataAfter, h.crc rfl]
  | _ => cases hw

end

/-! ### Rule R33 -/

/-- No command reads one register group and writes another. -/
theorem reads_writes_same_group (m : Mnemonic) :
    (readsCipher m = true → writesPr m = false ∧ writesCrc m = false) ∧
    (readsPr m = true → writesCipher m = false ∧ writesCrc m = false) ∧
    (readsCrc m = true → writesCipher m = false ∧ writesPr m = false) := by
  cases m <;> decide

/-- Settles O14, column by column. -/
theorem accessMatrix : Obligations.AccessMatrix := by
  refine ⟨fun i s => ⟨_, exec_eq i s, fun h => ?_, dataAfter_pr_of_not_writes i s,
    dataAfter_crc_of_not_writes i s, dataAfter_err i s, dataAfter_inputs i s⟩,
    fun i s s' t t' ht ht' hcipher hpr hcrc => ?_, reads_writes_same_group,
    fun s t w rest c hs hd ht => ?_⟩
  · exact (cipher_eq_iff _ _).mp (dataAfter_cipher_of_not_writes i s h)
  · rw [exec_eq] at ht ht'
    cases ht
    cases ht'
    have hagree : AgreeOnRead i s s' := ⟨fun h => (cipher_eq_iff s s').mpr (hcipher h), hpr, hcrc⟩
    refine ⟨?_, fun hw => ?_, dataAfter_pr_eq_of_agreeOnRead hagree,
      dataAfter_crc_eq_of_agreeOnRead hagree⟩
    · simp [resultOf_eq_of_agreeOnRead hagree]
    · exact (cipher_eq_iff _ _).mp (dataAfter_cipher_eq_of_agreeOnRead hagree hw)
  · rw [step_of_inputs_cons hs, afterInput_of_illegal hd] at ht
    cases ht
    exact ⟨rfl, rfl, rfl, rfl, rfl⟩

end Sys2Proof.Proofs
end

section
/-! The two halves as one 48-bit shift register (spec/10_state.md rule R23): the halves by position, and
one forward step by position. -/

namespace Sys2Proof.Proofs

open Sys2Proof.Machine Sys2Proof.Laws Sys2Proof.Statements

/-! ### Positions -/

theorem conceptual_odd_position (odd even : BitVec 24) {j : Nat} (hj : j < 24) :
    conceptual odd even (47 - 2 * j) = odd.getLsbD j := by
  rw [conceptual, if_pos (by omega), show (47 - (47 - 2 * j)) / 2 = j by omega]

theorem conceptual_even_position (odd even : BitVec 24) {j : Nat} (hj : j < 24) :
    conceptual odd even (46 - 2 * j) = even.getLsbD j := by
  rw [conceptual, if_neg (by omega), show (46 - (46 - 2 * j)) / 2 = j by omega]

/-- Every position is one of the two halves'. -/
theorem exists_position {i : Nat} (hi : i < 48) : ∃ j < 24, i = 47 - 2 * j ∨ i = 46 - 2 * j :=
  ⟨(47 - i) / 2, by omega, by omega⟩

/-- One forward step moves every bit of the register one place down. -/
theorem conceptual_step1_shift (c : Cipher) (inp e : Bool) {i : Nat} (hi : i < 47) :
    conceptual (step1 c inp e).2.odd (step1 c inp e).2.even i = conceptual c.odd c.even (i + 1) := by
  obtain ⟨j, hj, rfl | rfl⟩ := exists_position (i := i) (by omega)
  · obtain ⟨k, rfl⟩ : ∃ k, j = k + 1 := ⟨j - 1, by omega⟩
    rw [conceptual_odd_position _ _ hj, getLsbD_step1_odd, if_neg k.succ_ne_zero,
      show 47 - 2 * (k + 1) + 1 = 46 - 2 * k by omega, conceptual_even_position _ _ (by omega)]
    simp [hj]
  · rw [conceptual_even_position _ _ hj, step1_even,
      show 46 - 2 * j + 1 = 47 - 2 * j by omega, conceptual_odd_position _ _ hj]

/-- The taps of the two polynomials (rule R90) are the positions rule R23 lists. -/
theorem foldl_conceptual_taps (odd even : BitVec 24) :
    ([5, 9, 15, 17, 19, 25, 27, 29, 35, 39, 41, 43] ++ [0, 10, 12, 14, 24, 42]).foldl
        (fun acc i => acc ^^ conceptual odd even i) false =
      parity24 ((lfPolyOdd &&& odd) ^^^ (lfPolyEven &&& even)) := by
  have hperm : ([5, 9, 15, 17, 19, 25, 27, 29, 35, 39, 41, 43] ++ [0, 10, 12, 14, 24, 42]).Perm
      (oddTaps.map (47 - 2 * ·) ++ evenTaps.map (46 - 2 * ·)) := by decide
  have hcomm : RightCommutative fun (acc : Bool) i => acc ^^ conceptual odd even i :=
    ⟨fun _ _ _ => Bool.xor_right_comm _ _ _⟩
  rw [hperm.foldl_eq, parity24_xor, parity24_lfPolyOdd, parity24_lfPolyEven]
  simp only [oddTaps, evenTaps, List.map_cons, List.map_nil, List.cons_append, List.nil_append,
    List.foldl_cons, List.foldl_nil, Bool.false_xor, Bool.xor_assoc]
  rfl

/-- The bit that enters at `a[47]`: the feedback of rule R100. -/
theorem conceptual_step1_newest (c : Cipher) (inp e : Bool) :
    conceptual (step1 c inp e).2.odd (step1 c inp e).2.even 47 = fb c.odd c.even inp e := by
  rw [conceptual_odd_position _ _ (j := 0) (by omega), getLsbD_step1_odd, if_pos rfl]

/-- Settles O38: the two halves by position, one forward step by position, and the filter window. -/
theorem conceptualShiftRegister : Obligations.ConceptualShiftRegister := by
  refine ⟨fun odd even j hj => ⟨conceptual_odd_position odd even hj,
    conceptual_even_position odd even hj⟩, fun e inp s => ⟨_, exec_eq (.stbit e inp) s,
    fun i hi => conceptual_step1_shift s.cipher _ e hi, ?_⟩, fun odd even n hn => ?_⟩
  · rw [foldl_conceptual_taps, BitVec.setWidth_eq_extractLsb' (by omega)]
    exact conceptual_step1_newest s.cipher _ e
  · rw [conceptual_odd_position _ _ (by omega), BitVec.getLsbD_setWidth, decide_eq_true hn,
      Bool.true_and]

end Sys2Proof.Proofs
end

section
/-! The command word at the port (spec/20_memory.md rules R50 and R62): a step executes the command that the
word decodes to, wherever the word came from. -/

namespace Sys2Proof.Proofs

open Sys2Proof.Machine Sys2Proof.Laws

/-- With a legal command word at the port, the step takes it and executes its command. -/
theorem step_of_legal_command {s : State} {w : CommandWord} {rest : List Input} {i : Instr}
    (hs : s.inputs = .command w :: rest) (hd : decode w = .command i) :
    step s = exec i { s with inputs := rest } := by
  rw [step_of_inputs_cons hs, afterInput_of_legal hd, exec_eq]

/-- Placing all 64 bits of a command word is presenting that word. -/
theorem withFetchWord_toNat (s : State) (w : CommandWord) :
    s.withFetchWord 64 w.toNat = s.present w := by
  rw [withFetchWord_eq, Nat.mod_eq_of_lt w.isLt, BitVec.ofNat_toNat, BitVec.setWidth_eq]

/-- Settles O7: the word next in line is the one executed, and a placed word is next in line. -/
theorem stepRunsDecodedCommand : Obligations.StepRunsDecodedCommand := by
  refine ⟨fun s w rest i hs hd => step_of_legal_command hs hd, fun s w i hd => ?_⟩
  rw [withFetchWord_toNat]
  exact step_present_command s hd

end Sys2Proof.Proofs
end

section
/-! The decoder and the encoder are inverse to each other (spec/30_encoding.md rules R55 to R62). Everything
rests on one equivalence: a word decodes to a command exactly when its four fields are that command's. -/

namespace Sys2Proof.Proofs

open Sys2Proof.Laws

/-! ### The fields of a command -/

/-- Only a stepping command has its flag set (rule R58). -/
theorem takesE_of_eFlag {i : Instr} (h : i.eFlag = true) : i.mnemonic.takesE = true := by
  cases i with
  | stbit | stbyte | stword | rbbit | rbbyte | rbword => rfl
  | _ => cases h

theorem toNat_setWidth_lt {v w : Nat} (x : BitVec v) : (x.setWidth w).toNat < 2 ^ v :=
  (BitVec.toNat_setWidth w x).trans_lt ((Nat.mod_le _ _).trans_lt x.isLt)

/-- The operand field of a command fits the command's operand width (rule R57). -/
theorem toNat_arg_lt (i : Instr) : i.arg.toNat < 2 ^ i.mnemonic.operandWidth := by
  cases i with
  | nop | rdkey | rdst | crcinit | crcrd => exact Nat.one_pos
  | ldkey | ldst => exact BitVec.isLt _
  | _ => exact toNat_setWidth_lt _

/-- The test of cause 3 finds nothing in the operand field of a command. -/
theorem arg_shift_eq_zero (i : Instr) : i.arg >>> i.mnemonic.operandWidth = 0#48 :=
  (shift_eq_zero_iff _ _).mpr (toNat_arg_lt i)

/-- The low bits of a zero-extended operand are the operand. -/
theorem extractLsb'_setWidth {w : Nat} (h : w ≤ 48) (x : BitVec w) :
    (x.setWidth 48).extractLsb' 0 w = x := by
  rw [← BitVec.setWidth_eq_extractLsb' h, BitVec.setWidth_setWidth_of_le _ h, BitVec.setWidth_eq]

/-- A value that fits `w` bits is the zero extension of its low `w` bits. -/
theorem setWidth_extractLsb' {w : Nat} (h : w ≤ 48) {a : Field48} (ha : a >>> w = 0#48) :
    (a.extractLsb' 0 w).setWidth 48 = a := by
  rw [← BitVec.setWidth_eq_extractLsb' h, ← BitVec.toNat_inj, BitVec.toNat_setWidth,
    BitVec.toNat_setWidth, Nat.mod_eq_of_lt ((shift_eq_zero_iff a w).mp ha), Nat.mod_eq_of_lt a.isLt]

/-- A command is rebuilt from its mnemonic, its flag and its operand field. -/
theorem instrOf_fields (i : Instr) : instrOf i.mnemonic i.eFlag i.arg = i := by
  cases i with
  | nop | ldkey | rdkey | rdst | crcinit | crcrd => rfl
  | ldst odd even =>
    exact congrArg₂ Instr.ldst BitVec.extractLsb'_append_eq_left BitVec.extractLsb'_append_eq_right
  | _ => simp [instrOf, Instr.mnemonic, Instr.eFlag, Instr.arg, extractLsb'_setWidth]

/-- An operand that fits the command's width is the operand field of the command built from it. -/
theorem arg_instrOf {m : Mnemonic} {arg : Field48} (h : arg >>> m.operandWidth = 0#48) (e : Bool) :
    (instrOf m e arg).arg = arg := by
  cases m with
  | NOP | RDKEY | RDST | CRCINIT | CRCRD => exact h.symm
  | LDKEY => rfl
  | LDST => exact BitVec.extractLsb'_append_extractLsb'
  | _ => exact setWidth_extractLsb' (by decide) h

/-! ### The equivalence -/

/-- A word decodes to a command exactly when its four fields are those of the command. -/
theorem decode_eq_command_iff (w : CommandWord) (i : Instr) :
    decode w = .command i ↔ opField w = i.mnemonic.opcode ∧ rsvField w = 0#7 ∧
      eField w = i.eFlag ∧ argField w = i.arg := by
  constructor
  · intro h
    rcases decode_cases w with ⟨-, hd⟩ | ⟨m, -, -, hd⟩ | ⟨m, -, -, -, -, hd⟩ |
      ⟨m, hop, hrsv, he, harg, hd⟩
    · cases hd.symm.trans h
    · cases hd.symm.trans h
    · cases hd.symm.trans h
    · cases hd.symm.trans h
      refine ⟨by rw [mnemonic_instrOf, hop], hrsv, ?_, (arg_instrOf harg _).symm⟩
      exact (Bool.eq_self_and.mpr he).trans (eFlag_instrOf _ _ _).symm
  · rintro ⟨hop, hrsv, he, harg⟩
    have hflag : (i.eFlag && !i.mnemonic.takesE) = false := by simpa using takesE_of_eFlag
    simp [decode_of_opcode hop, hrsv, he, harg, hflag, arg_shift_eq_zero, instrOf_fields]

theorem decode_encode (i : Instr) : decode (encode i) = .command i :=
  (decode_eq_command_iff _ i).mpr ⟨opField_commandWord _ _ _, rsvField_commandWord _ _ _,
    eField_commandWord _ _ _, argField_commandWord _ _ _⟩

theorem encode_of_decode {w : CommandWord} {i : Instr} (h : decode w = .command i) : encode i = w := by
  obtain ⟨hop, hrsv, he, harg⟩ := (decode_eq_command_iff w i).mp h
  rw [encode, ← hop, ← he, ← harg, commandWord_of_fields w hrsv]

/-- Settles O2: the four fields of a command's word are those of the command. -/
theorem decodeOfEncode : Obligations.DecodeOfEncode := decode_encode

/-- Settles O3: a word with `RSV = 0` is its other three fields, which are those of the command. -/
theorem encodeOfDecode : Obligations.EncodeOfDecode := fun _ _ h => encode_of_decode h

/-- Settles O1: each of the words printed by the spec is evaluated. -/
theorem specExampleWordsDecode : Obligations.SpecExampleWordsDecode := by
  unfold Obligations.SpecExampleWordsDecode
  decide

/-! ### The three causes of rule R61 -/

/-- Two mnemonics with one opcode are one (rule R59). -/
theorem opcode_injective : Function.Injective Mnemonic.opcode := fun m m' h => by
  have hm := congrArg mnemonicOf h
  rw [mnemonicOf_opcode, mnemonicOf_opcode] at hm
  exact Option.some.inj hm

theorem decode_eq_unknownOpcode_iff (w : CommandWord) :
    decode w = .illegal .unknownOpcode ↔ ∀ m : Mnemonic, opField w ≠ m.opcode := by
  constructor
  · intro h m hop
    rw [decode_of_opcode hop] at h
    split_ifs at h <;> cases h
  · intro h
    rcases decode_cases w with ⟨-, hd⟩ | ⟨m, hop, -⟩ | ⟨m, hop, -⟩ | ⟨m, hop, -⟩
    · exact hd
    · exact absurd hop (h m)
    · exact absurd hop (h m)
    · exact absurd hop (h m)

theorem decode_eq_reservedBits_iff (w : CommandWord) :
    decode w = .illegal .reservedBits ↔ ∃ m : Mnemonic, opField w = m.opcode ∧
      (rsvField w ≠ 0#7 ∨ (eField w = true ∧ m.takesE = false)) := by
  constructor
  · intro h
    rcases decode_cases w with ⟨-, hd⟩ | ⟨m, hop, hbits, -⟩ | ⟨m, -, -, -, -, hd⟩ |
      ⟨m, -, -, -, -, hd⟩
    · cases hd.symm.trans h
    · exact ⟨m, hop, hbits⟩
    · cases hd.symm.trans h
    · cases hd.symm.trans h
  · rintro ⟨m, hop, hrsv | ⟨he, hm⟩⟩
    · rw [decode_of_opcode hop, if_pos hrsv]
    · simp [decode_of_opcode hop, he, hm]

theorem decode_eq_operandRange_iff (w : CommandWord) :
    decode w = .illegal .operandRange ↔ ∃ m : Mnemonic, opField w = m.opcode ∧ rsvField w = 0#7 ∧
      (eField w = true → m.takesE = true) ∧ 2 ^ m.operandWidth ≤ (argField w).toNat := by
  have hrange (m : Mnemonic) :
      argField w >>> m.operandWidth ≠ 0#48 ↔ 2 ^ m.operandWidth ≤ (argField w).toNat := by
    rw [ne_eq, shift_eq_zero_iff, not_lt]
  constructor
  · intro h
    rcases decode_cases w with ⟨-, hd⟩ | ⟨m, -, -, hd⟩ | ⟨m, hop, hrsv, he, harg, -⟩ |
      ⟨m, -, -, -, -, hd⟩
    · cases hd.symm.trans h
    · cases hd.symm.trans h
    · exact ⟨m, hop, hrsv, he, (hrange m).mp harg⟩
    · cases hd.symm.trans h
  · rintro ⟨m, hop, hrsv, he, harg⟩
    have hflag : ¬ (eField w && !m.takesE) = true := by simpa using he
    rw [decode_of_opcode hop, if_neg (not_not.mpr hrsv), if_neg hflag, if_pos ((hrange m).mpr harg)]

/-- Settles O5: one equivalence for each outcome of the decoder. -/
theorem illegalCausesInOrder : Obligations.IllegalCausesInOrder := by
  refine fun w => ⟨decode_eq_unknownOpcode_iff w, decode_eq_reservedBits_iff w,
    decode_eq_operandRange_iff w, decode_eq_command_iff w, ?_⟩
  cases decode w with
  | command i => exact .inl ⟨i, rfl⟩
  | illegal c => exact .inr ⟨c, rfl⟩

end Sys2Proof.Proofs
end

section
/-! The rows of the opcode table (spec/30_encoding.md rule R60): a word lies on a row exactly when its fields
pass the decoder's tests for that row's command. -/

namespace Sys2Proof.Proofs

open Sys2Proof.Laws Sys2Proof.Statements

/-! ### The fields of a masked word, and of the match and mask values -/

theorem opField_and (v w : CommandWord) : opField (v &&& w) = opField v &&& opField w :=
  BitVec.extractLsb'_and ..

theorem rsvField_and (v w : CommandWord) : rsvField (v &&& w) = rsvField v &&& rsvField w :=
  BitVec.extractLsb'_and ..

theorem eField_and (v w : CommandWord) : eField (v &&& w) = (eField v && eField w) :=
  BitVec.getLsbD_and ..

theorem argField_and (v w : CommandWord) : argField (v &&& w) = argField v &&& argField w :=
  BitVec.extractLsb'_and ..

theorem opField_maskBits (m : Mnemonic) : opField m.maskBits = BitVec.allOnes 8 := by
  cases m <;> decide

theorem rsvField_maskBits (m : Mnemonic) : rsvField m.maskBits = BitVec.allOnes 7 := by
  cases m <;> decide

theorem eField_maskBits (m : Mnemonic) : eField m.maskBits = !m.takesE := by
  cases m <;> decide

theorem argField_maskBits (m : Mnemonic) :
    argField m.maskBits = BitVec.allOnes 48 <<< m.operandWidth := by
  cases m <;> decide

theorem opField_matchBits (m : Mnemonic) : opField m.matchBits = m.opcode := by
  cases m <;> decide

theorem rsvField_matchBits (m : Mnemonic) : rsvField m.matchBits = 0#7 := by
  cases m <;> decide

theorem eField_matchBits (m : Mnemonic) : eField m.matchBits = false := by
  cases m <;> decide

theorem argField_matchBits (m : Mnemonic) : argField m.matchBits = 0#48 := by
  cases m <;> decide

/-- A value is zero under the mask of the bits from `n` on only if it fits `n` bits. -/
theorem shift_eq_zero_of_and_mask {a : Field48} {n : Nat} (h : a &&& BitVec.allOnes 48 <<< n = 0#48) :
    a >>> n = 0#48 := by
  apply BitVec.eq_of_getLsbD_eq
  intro i hi
  have hbit := congrArg (·.getLsbD (n + i)) h
  simp only [BitVec.getLsbD_and, BitVec.getLsbD_shiftLeft, BitVec.getLsbD_allOnes] at hbit
  by_cases hn : n + i < 48
  · simpa [hn, show i < 48 by omega] using hbit
  · simp [BitVec.getLsbD_of_ge a (n + i) (by omega)]

/-- A value that fits `n` bits has no bit from `n` on. -/
theorem getLsbD_eq_false_of_shift {a : Field48} {n i : Nat} (h : a >>> n = 0#48) (hi : n ≤ i) :
    a.getLsbD i = false := by
  have hbit := congrArg (·.getLsbD (i - n)) h
  simpa [Nat.add_sub_cancel' hi] using hbit

/-! ### The rows -/

/-- A word lies on a row exactly when it passes the decoder's tests for that row's command. -/
theorem on_row_iff_fields (w : CommandWord) (m : Mnemonic) :
    w &&& m.maskBits = m.matchBits ↔ opField w = m.opcode ∧ rsvField w = 0#7 ∧
      (eField w = true → m.takesE = true) ∧ argField w >>> m.operandWidth = 0#48 := by
  constructor
  · intro h
    have hop := congrArg opField h
    have hrsv := congrArg rsvField h
    have he := congrArg eField h
    have harg := congrArg argField h
    rw [opField_and, opField_maskBits, opField_matchBits, BitVec.and_allOnes] at hop
    rw [rsvField_and, rsvField_maskBits, rsvField_matchBits, BitVec.and_allOnes] at hrsv
    rw [eField_and, eField_maskBits, eField_matchBits] at he
    rw [argField_and, argField_maskBits, argField_matchBits] at harg
    exact ⟨hop, hrsv, by simpa using he, shift_eq_zero_of_and_mask harg⟩
  · rintro ⟨hop, hrsv, he, harg⟩
    rw [← commandWord_of_fields w hrsv, hop]
    exact commandWord_on_row m _ _ he fun i => getLsbD_eq_false_of_shift harg

/-- A word lies on a row exactly when it decodes to that row's command. -/
theorem on_row_iff_decode (w : CommandWord) (m : Mnemonic) :
    w &&& m.maskBits = m.matchBits ↔ ∃ i, decode w = .command i ∧ i.mnemonic = m := by
  rw [on_row_iff_fields]
  constructor
  · rintro ⟨hop, hrsv, he, harg⟩
    refine ⟨instrOf m (eField w) (argField w), (decode_eq_command_iff _ _).mpr ?_, mnemonic_instrOf ..⟩
    rw [mnemonic_instrOf, eFlag_instrOf, arg_instrOf harg]
    exact ⟨hop, hrsv, Bool.eq_self_and.mpr he, rfl⟩
  · rintro ⟨i, hd, rfl⟩
    obtain ⟨hop, hrsv, he, harg⟩ := (decode_eq_command_iff w i).mp hd
    refine ⟨hop, hrsv, fun h => takesE_of_eFlag (he ▸ h), ?_⟩
    rw [harg, arg_shift_eq_zero]

/-- The table's rows are those of the formula of rule R60. -/
theorem tableRow_eq (m : Mnemonic) : tableRow m = (m.matchBits, m.maskBits) := by
  cases m <;> decide

/-- Settles O4: a row is its command's tests, so two rows of one word have one opcode, and a word that
decodes to a command is on a row. -/
theorem matchMaskSelectsCommand : Obligations.MatchMaskSelectsCommand := by
  refine ⟨tableRow_eq, ?_⟩
  simp only [tableRow_eq]
  refine ⟨on_row_iff_decode, fun w m m' h h' => ?_, fun w h => ?_⟩
  · obtain ⟨hop, -⟩ := (on_row_iff_fields w m).mp h
    obtain ⟨hop', -⟩ := (on_row_iff_fields w m').mp h'
    exact opcode_injective (hop.symm.trans hop')
  · cases hd : decode w with
    | command i => exact absurd ((on_row_iff_decode w _).mpr ⟨i, hd, rfl⟩) (h i.mnemonic)
    | illegal c => exact ⟨c, rfl⟩

end Sys2Proof.Proofs
end

section
/-! Assembler lines (spec/30_encoding.md rule R64): the line of a command is well formed and reads back. -/

namespace Sys2Proof.Proofs

/-- `LDST` writes its two halves; every other command writes its operand field as one number, or nothing
where it takes no operand. -/
theorem asmLine_operands_cases (i : Instr) :
    (∃ odd even, i = .ldst odd even) ∨
    (i.asmLine.operands = (if i.mnemonic.operandWidth = 0 then [] else [i.arg.toNat]) ∧
      i.mnemonic.operandWidths =
        if i.mnemonic.operandWidth = 0 then [] else [i.mnemonic.operandWidth]) := by
  cases i with
  | ldst odd even => exact .inl ⟨odd, even, rfl⟩
  | _ => exact .inr ⟨rfl, rfl⟩

/-- The line of a command has as many operands as it takes, each within its width, and they make up the
operand field. -/
theorem asmLine_operands_ok (i : Instr) :
    i.asmLine.countOk = true ∧ i.asmLine.rangeOk = true ∧ i.asmLine.argValue = i.arg.toNat := by
  rcases asmLine_operands_cases i with ⟨odd, even, rfl⟩ | ⟨hops, hwidths⟩
  · refine ⟨rfl, ?_, ?_⟩
    · simp [AsmLine.rangeOk, Instr.asmLine, Instr.mnemonic, Mnemonic.operandWidths, odd.isLt, even.isLt]
    · simp only [AsmLine.argValue, Instr.asmLine, Instr.arg, BitVec.toNat_append]
      rw [← Nat.shiftLeft_add_eq_or_of_lt even.isLt, Nat.shiftLeft_eq]
  · have hm : i.asmLine.mnemonic = i.mnemonic := rfl
    have hlt := toNat_arg_lt i
    unfold AsmLine.countOk AsmLine.rangeOk AsmLine.argValue
    rw [hm, hops, hwidths]
    by_cases h0 : i.mnemonic.operandWidth = 0
    · have harg : i.arg.toNat = 0 := by simpa [h0] using hlt
      simp [h0, harg]
    · simp [h0, hlt]

theorem asmLine_flagOk (i : Instr) : i.asmLine.flagOk = true := by
  simpa [AsmLine.flagOk, Instr.asmLine, ← Bool.not_eq_true, ← imp_iff_not_or] using takesE_of_eFlag

/-- Settles O6: the three checks pass, and the line's fields are those the command is rebuilt from. -/
theorem assembleOfAsmLine : Obligations.AssembleOfAsmLine := by
  intro i
  obtain ⟨hcount, hrange, hvalue⟩ := asmLine_operands_ok i
  have hwf : i.asmLine.wellFormed = true := by
    rw [AsmLine.wellFormed, hcount, hrange, asmLine_flagOk]; rfl
  refine ⟨hwf, ?_⟩
  rw [assemble, if_pos hwf, hvalue, BitVec.ofNat_toNat, BitVec.setWidth_eq]
  exact congrArg some (instrOf_fields i)

end Sys2Proof.Proofs
end

section
/-! The response port (spec/30_encoding.md rule R56): every response has the fields of the table, and a
step keeps the port in order. -/

namespace Sys2Proof.Proofs

open Sys2Proof.Machine Sys2Proof.Laws Sys2Proof.Statements

/-- The result of a command whose row names none is zero. -/
theorem resultOf_of_hasNoResult {i : Instr} (h : hasNoResult i.mnemonic = true) (s : State) :
    resultOf i s = 0#48 := by
  cases i with
  | nop | ldkey | ldst | prld | crcinit | crcbyte => rfl
  | _ => cases h

/-- Settles O10, from what taking the word leaves at the port and how a response word reads back. -/
theorem responseWordFields : Obligations.ResponseWordFields := by
  intro s w rest hs
  cases hd : decode w with
  | command i =>
    refine ⟨_, _, (step_of_legal_command hs hd).trans (exec_eq _ _), answer_rsp _ _,
      rspErr_response .., response_high_reserved .., response_low_reserved .., nofun, fun j hj => ?_⟩
    cases hj
    exact ⟨rspIll_response .., rspCause_response ..,
      fun h => (rspQ_response ..).trans (resultOf_of_hasNoResult h _)⟩
  | illegal c =>
    refine ⟨_, _, (step_of_inputs_cons hs).trans (congrArg _ (afterInput_of_illegal hd _)),
      takeIllegal_rsp _ _, rspErr_response .., response_high_reserved .., response_low_reserved ..,
      fun d hd' => ?_, nofun⟩
    cases hd'
    refine ⟨rspIll_response .., rspQ_response .., (rspCause_response ..).trans ?_⟩
    cases c <;> rfl

theorem code_ne_zero (c : Cause) : c.code ≠ 0#2 := by
  cases c <;> decide

/-- The answer to a legal command is one the core can give. -/
theorem responseOk_legal (err : Bool) (q : BitVec 48) :
    responseOk err (response err false 0#2 q) := by
  simp [responseOk]

/-- The answer to an illegal command is one the core can give. -/
theorem responseOk_illegal (c : Cause) : responseOk true (response true true c.code 0#48) := by
  simp [responseOk, code_ne_zero]

theorem responsePortOk_of_rsp_eq_none {s : State} (h : s.rsp = none) : ResponsePortOk s := by
  intro r hr
  cases h.symm.trans hr

theorem responsePortOk_of_rsp_eq_some {s : State} {r : ResponseWord} (h : s.rsp = some r)
    (hok : responseOk s.err r) : ResponsePortOk s := by
  intro r' hr
  cases h.symm.trans hr
  exact hok

/-- Taking an input leaves the port in order, whatever it held before. -/
theorem responsePortOk_afterInput (x : Input) (s : State) : ResponsePortOk (afterInput x s) := by
  cases x with
  | reset => exact responsePortOk_of_rsp_eq_none (takeReset_rsp s)
  | command w =>
    cases hd : decode w with
    | command i =>
      rw [afterInput_of_legal hd]
      exact responsePortOk_of_rsp_eq_some (answer_rsp _ _) (responseOk_legal _ _)
    | illegal c =>
      rw [afterInput_of_illegal hd]
      exact responsePortOk_of_rsp_eq_some (takeIllegal_rsp _ _) (responseOk_illegal c)

/-- Settles O16: a step with nothing to take changes nothing, and taking an input answers in order. -/
theorem stepKeepsResponsePort : Obligations.StepKeepsResponsePort := by
  intro s t hok h
  cases hs : s.inputs with
  | nil =>
    rw [waitsWithoutInput s hs] at h
    cases h
    exact hok
  | cons x rest =>
    rw [step_of_inputs_cons hs] at h
    cases h
    exact responsePortOk_afterInput x _

/-- Settles O17: no response is at the port after reset. -/
theorem responsePortAtReset : Obligations.ResponsePortAtReset :=
  ⟨rfl, responsePortOk_of_rsp_eq_none rfl⟩

end Sys2Proof.Proofs
end

section
/-! The encodings of one mnemonic (spec/30_encoding.md rules R58 and R61): how the words with its opcode
decode, once for all twenty. -/

namespace Sys2Proof.Proofs

open Sys2Proof.Laws Sys2Proof.Statements

/-- The words with the opcode of `m` decode as its row of rule R58 says. -/
theorem encodedAs_instrOf (m : Mnemonic) :
    EncodedAs m.opcode m.operandWidth m.takesE (instrOf m) := by
  intro w hop
  rw [decode_of_opcode hop, ite_or]
  simp only [ne_eq, shift_eq_zero_iff, not_lt, Bool.and_eq_true, Bool.not_eq_true']
  rfl

end Sys2Proof.Proofs
end

section
/-! The key packing of rules R81 and R82: both maps bit by bit, that each undoes the other (rule R85), and
the keys whose halves the source gives. -/

namespace Sys2Proof.Proofs

open Sys2Proof.Machine Sys2Proof.Laws Sys2Proof.Statements

/-! ### The permutation of the bit positions -/

theorem two_mul_xor_seven {j : Nat} (hj : j < 24) : (2 * j) ^^^ 7 = 2 * (j ^^^ 3) + 1 := by
  revert j
  decide

theorem two_mul_add_one_xor_seven {j : Nat} (hj : j < 24) : (2 * j + 1) ^^^ 7 = 2 * (j ^^^ 3) := by
  revert j
  decide

theorem xor_three_lt {j : Nat} (hj : j < 24) : j ^^^ 3 < 24 := by
  revert j
  decide

/-- The key position of the bit that is `a[8m + n]` of the wire order (the derivation of rule R81). -/
theorem wire_position_xor_seven {m n : Nat} (hm : m < 6) (hn : n < 8) :
    (47 - (8 * m + n)) ^^^ 7 = 8 * (5 - m) + n := by
  have hall : ∀ m < 6, ∀ n < 8, (47 - (8 * m + n)) ^^^ 7 = 8 * (5 - m) + n := by decide
  exact hall m hm n hn

/-! ### The two maps bit by bit -/

theorem getLsbD_packKey_odd (key : BitVec 48) {j : Nat} (hj : j < 24) :
    (packKey key).odd.getLsbD j = key.getLsbD ((2 * j) ^^^ 7) := by
  rw [packKey, getLsbD_bitsOf, decide_eq_true hj, Bool.true_and]

theorem getLsbD_packKey_even (key : BitVec 48) {j : Nat} (hj : j < 24) :
    (packKey key).even.getLsbD j = key.getLsbD ((2 * j + 1) ^^^ 7) := by
  rw [packKey, getLsbD_bitsOf, decide_eq_true hj, Bool.true_and]

theorem getLsbD_unpackKey_odd_position (c : Cipher) {i : Nat} (hi : i < 24) :
    (unpackKey c).getLsbD (2 * i + 1) = c.odd.getLsbD (i ^^^ 3) := by
  rw [unpackKey, getLsbD_bitsOf, decide_eq_true (by omega), Bool.true_and, if_pos (by omega),
    show (2 * i + 1) / 2 = i by omega]

theorem getLsbD_unpackKey_even_position (c : Cipher) {i : Nat} (hi : i < 24) :
    (unpackKey c).getLsbD (2 * i) = c.even.getLsbD (i ^^^ 3) := by
  rw [unpackKey, getLsbD_bitsOf, decide_eq_true (by omega), Bool.true_and, if_neg (by omega),
    show 2 * i / 2 = i by omega]

/-- The halves of a key, read as the 48-bit shift register of rule R23. -/
theorem conceptual_packKey (key : BitVec 48) {i : Nat} (hi : i < 48) :
    conceptual (packKey key).odd (packKey key).even i = key.getLsbD ((47 - i) ^^^ 7) := by
  obtain ⟨j, hj, rfl | rfl⟩ := exists_position hi
  · rw [conceptual_odd_position _ _ hj, getLsbD_packKey_odd key hj,
      show 47 - (47 - 2 * j) = 2 * j by omega]
  · rw [conceptual_even_position _ _ hj, getLsbD_packKey_even key hj,
      show 47 - (46 - 2 * j) = 2 * j + 1 by omega]

/-! ### Each map undoes the other -/

@[simp] theorem unpackKey_packKey (key : BitVec 48) : unpackKey (packKey key) = key := by
  refine BitVec.eq_of_getLsbD_eq fun n hn => ?_
  obtain ⟨i, rfl | rfl⟩ := Nat.even_or_odd' n
  · have hi : i < 24 := by omega
    rw [getLsbD_unpackKey_even_position _ hi, getLsbD_packKey_even _ (xor_three_lt hi),
      two_mul_add_one_xor_seven (xor_three_lt hi), Nat.xor_xor_cancel_right]
  · have hi : i < 24 := by omega
    rw [getLsbD_unpackKey_odd_position _ hi, getLsbD_packKey_odd _ (xor_three_lt hi),
      two_mul_xor_seven (xor_three_lt hi), Nat.xor_xor_cancel_right]

@[simp] theorem packKey_unpackKey (c : Cipher) : packKey (unpackKey c) = c := by
  have hodd : (packKey (unpackKey c)).odd = c.odd := BitVec.eq_of_getLsbD_eq fun j hj => by
    rw [getLsbD_packKey_odd _ hj, two_mul_xor_seven hj,
      getLsbD_unpackKey_odd_position _ (xor_three_lt hj), Nat.xor_xor_cancel_right]
  have heven : (packKey (unpackKey c)).even = c.even := BitVec.eq_of_getLsbD_eq fun j hj => by
    rw [getLsbD_packKey_even _ hj, two_mul_add_one_xor_seven hj,
      getLsbD_unpackKey_even_position _ (xor_three_lt hj), Nat.xor_xor_cancel_right]
  exact congrArg₂ Cipher.mk hodd heven

/-- A cipher state is the packing of a key exactly when the key is its unpacking. -/
theorem packKey_eq_iff (key : BitVec 48) (c : Cipher) : packKey key = c ↔ key = unpackKey c :=
  ⟨fun h => by rw [← h, unpackKey_packKey], fun h => by rw [h, packKey_unpackKey]⟩

/-! ### The keys of the source -/

theorem packKey_zero : packKey 0x000000000000#48 = ⟨0x000000#24, 0x000000#24⟩ := by decide
theorem packKey_ones : packKey 0xFFFFFFFFFFFF#48 = ⟨0xFFFFFF#24, 0xFFFFFF#24⟩ := by decide
theorem packKey_odd_ones : packKey 0xAAAAAAAAAAAA#48 = ⟨0xFFFFFF#24, 0x000000#24⟩ := by decide
theorem packKey_even_ones : packKey 0x555555555555#48 = ⟨0x000000#24, 0xFFFFFF#24⟩ := by decide
theorem packKey_example : packKey 0xA0A1A2A3A4A5#48 = ⟨0x33BB33#24, 0x08084C#24⟩ := by decide

theorem unpackKey_example : unpackKey ⟨0x33BB33#24, 0x08084C#24⟩ = 0xA0A1A2A3A4A5#48 := by
  rw [← packKey_example, unpackKey_packKey]

theorem append_example : 0x33BB33#24 ++ 0x08084C#24 = 0x33BB3308084C#48 := by decide

end Sys2Proof.Proofs
end

section
/-! `NOP`, `LDKEY`, `RDKEY`, `LDST` and `RDST` (spec/40_key_state.md): the next state of each, given the
packing of its operand or of the registers. -/

namespace Sys2Proof.Proofs

open Sys2Proof.Machine Sys2Proof.Laws Sys2Proof.Statements

/-! ### One equation per command -/

theorem exec_ldkey {key : BitVec 48} {o ev : BitVec 24} (h : packKey key = ⟨o, ev⟩) (s : State) :
    exec (.ldkey key) s = .next { s with odd := o, even := ev, rsp := legalAnswer s 0#48 } := by
  rw [exec_eq, dataAfter, h]
  rfl

theorem exec_rdkey {s : State} {q : BitVec 48} (h : unpackKey s.cipher = q) :
    exec .rdkey s = .next { s with rsp := legalAnswer s q } := by
  rw [exec_eq, resultOf, h]
  rfl

theorem exec_ldst (odd even : BitVec 24) (s : State) : exec (.ldst odd even) s =
    .next { s with odd := odd, even := even, rsp := legalAnswer s 0#48 } := exec_eq _ s

theorem exec_rdst {s : State} {q : BitVec 48} (h : s.odd ++ s.even = q) :
    exec .rdst s = .next { s with rsp := legalAnswer s q } := by
  rw [exec_eq, resultOf, h]
  rfl

/-- `LDKEY` reaches the halves `o` and `ev` from their key only. -/
theorem exec_ldkey_eq_iff (key : BitVec 48) (o ev : BitVec 24) (s : State) :
    exec (.ldkey key) s = .next { s with odd := o, even := ev, rsp := legalAnswer s 0#48 } ↔
      key = unpackKey ⟨o, ev⟩ := by
  rw [← packKey_eq_iff]
  refine ⟨fun h => ?_, fun h => exec_ldkey h s⟩
  rw [exec_ldkey rfl, Host.Outcome.next.injEq, State.mk.injEq] at h
  obtain ⟨hodd, heven, -⟩ := h
  exact congrArg₂ Cipher.mk hodd heven

/-- The result of `RDST` bit by bit (rule R84). -/
theorem getLsbD_halves (odd even : BitVec 24) {j : Nat} (hj : j < 24) :
    (odd ++ even).getLsbD (24 + j) = odd.getLsbD j ∧ (odd ++ even).getLsbD j = even.getLsbD j := by
  rw [BitVec.getLsbD_append, if_neg (by omega), Nat.add_sub_cancel_left, BitVec.getLsbD_append,
    if_pos hj]
  exact ⟨rfl, rfl⟩

/-! ### The statements -/

/-- Settles O22: the halves are the packing of the key, which unpacking undoes. -/
theorem ldkeyEffect : Obligations.LdkeyEffect := by
  refine ⟨encodedAs_instrOf .LDKEY, fun key s => ⟨(packKey key).odd, (packKey key).even, exec_ldkey rfl s,
    fun j hj => ⟨getLsbD_packKey_odd key hj, getLsbD_packKey_even key hj⟩, fun m hm n hn => ?_⟩,
    fun s => ⟨exec_ldkey packKey_zero s, exec_ldkey packKey_ones s, exec_ldkey packKey_odd_ones s,
      exec_ldkey packKey_even_ones s, exec_ldkey packKey_example s⟩, fun o ev s => ?_⟩
  · rw [conceptual_packKey key (by omega), wire_position_xor_seven hm hn]
  · exact ⟨unpackKey ⟨o, ev⟩, (exec_ldkey_eq_iff _ o ev s).mpr rfl,
      fun key h => (exec_ldkey_eq_iff key o ev s).mp h⟩

/-- Settles O23: the result is the unpacking of the two halves, whatever they are. -/
theorem rdkeyEffect : Obligations.RdkeyEffect :=
  ⟨encodedAs_instrOf .RDKEY,
    fun s => ⟨_, exec_rdkey rfl, fun _ hi =>
      ⟨getLsbD_unpackKey_odd_position s.cipher hi, getLsbD_unpackKey_even_position s.cipher hi⟩⟩,
    fun _ => exec_rdkey unpackKey_example,
    fun key s => ⟨_, exec_ldkey rfl s, exec_rdkey (unpackKey_packKey key)⟩⟩

/-- Settles O25: packing and unpacking undo each other. -/
theorem packUnpackInverse : Obligations.PackUnpackInverse :=
  ⟨fun key s => ⟨_, exec_ldkey rfl s, exec_rdkey (unpackKey_packKey key)⟩,
    fun s => ⟨_, _, _, exec_rdkey rfl, rfl, exec_ldkey (packKey_unpackKey s.cipher) _, rfl, rfl⟩⟩

/-- Settles O26: the two halves of a 48-bit value joined are the value; `RDKEY` and `RDST` are compared at
each bit of the registers. -/
theorem rawAccessInverse : Obligations.RawAccessInverse := by
  refine ⟨fun v s => ⟨_, exec_ldst _ _ s, exec_rdst BitVec.extractLsb'_append_extractLsb'⟩,
    fun s => ⟨_, _, _, exec_rdst rfl, rfl, exec_ldst _ _ _, BitVec.extractLsb'_append_eq_left,
      BitVec.extractLsb'_append_eq_right⟩,
    fun s => ⟨_, _, exec_rdkey rfl, exec_rdst rfl, fun i hi => ?_⟩⟩
  obtain ⟨hodd, heven⟩ := getLsbD_halves s.odd s.even (xor_three_lt hi)
  exact ⟨(getLsbD_unpackKey_odd_position s.cipher hi).trans hodd.symm,
    (getLsbD_unpackKey_even_position s.cipher hi).trans heven.symm⟩

/-- Settles O21: a word decodes to `NOP` exactly when it is the word `NOP` encodes to. -/
theorem nopEffect : Obligations.NopEffect := by
  refine ⟨encodedAs_instrOf .NOP, fun w => ⟨fun h => (encode_of_decode h).symm, fun h => ?_⟩,
    fun s => exec_eq .nop s⟩
  rw [h]
  exact decode_encode .nop

/-- Settles O24: the two halves stand side by side in the operand and in the result. -/
theorem ldstRdstEffect : Obligations.LdstRdstEffect :=
  ⟨encodedAs_instrOf .LDST, encodedAs_instrOf .RDST, exec_ldst,
    fun s => ⟨_, exec_rdst rfl, fun _ hj => getLsbD_halves s.odd s.even hj⟩,
    fun s => ⟨_, exec_ldst _ _ s, exec_rdkey unpackKey_example⟩,
    fun s => ⟨_, exec_ldkey packKey_example s, exec_rdst append_example⟩⟩

end Sys2Proof.Proofs
end

section
/-! The filter of rule R91: the final index as a number, and the three ways of writing the five nibble
lookups and the final one. -/

namespace Sys2Proof.Proofs

open Sys2Proof.Machine Sys2Proof.Statements

/-- The index `i4 ‖ i3 ‖ i2 ‖ i1 ‖ i0` into the final table, as a number. -/
def finalIndex (i4 i3 i2 i1 i0 : Bool) : Nat :=
  16 * i4.toNat + 8 * i3.toNat + 4 * i2.toNat + 2 * i1.toNat + i0.toNat

theorem finalIndex_lt (i4 i3 i2 i1 i0 : Bool) : finalIndex i4 i3 i2 i1 i0 < 32 := by
  revert i4 i3 i2 i1 i0
  decide

theorem toNat_append_bits (i4 i3 i2 i1 i0 : Bool) :
    (BitVec.ofBool i4 ++ BitVec.ofBool i3 ++ BitVec.ofBool i2 ++ BitVec.ofBool i1
      ++ BitVec.ofBool i0).toNat = finalIndex i4 i3 i2 i1 i0 := by
  revert i4 i3 i2 i1 i0
  decide

theorem or_weighted_bits (i4 i3 i2 i1 i0 : Bool) :
    i4.toNat * 2 ^ 4 ||| i3.toNat * 2 ^ 3 ||| i2.toNat * 2 ^ 2 ||| i1.toNat * 2 ^ 1
      ||| i0.toNat * 2 ^ 0 = finalIndex i4 i3 i2 i1 i0 := by
  revert i4 i3 i2 i1 i0
  decide

/-- The five lookups of a window `n`, as the index they make. -/
def lookupIndex (n : Nat) : Nat :=
  finalIndex (tableA.getLsbD (n % 16)) (tableB.getLsbD (n / 16 % 16))
    (tableA.getLsbD (n / 256 % 16)) (tableA.getLsbD (n / 4096 % 16)) (tableB.getLsbD (n / 65536))

theorem lookupIndex_lt (n : Nat) : lookupIndex n < 32 := finalIndex_lt ..

theorem filter20_eq (x : BitVec 20) : filter20 x = tableC.getLsbD (lookupIndex x.toNat) := by
  have htop : x.toNat / 65536 % 16 = x.toNat / 65536 := Nat.mod_eq_of_lt (by omega)
  simp only [filter20, toNat_append_bits, lookupIndex, BitVec.extractLsb'_toNat,
    Nat.shiftRight_eq_div_pow, Nat.reducePow, Nat.div_one, htop]

/-! ### The listed entries -/

theorem entriesA_getD {n : Nat} (hn : n < 16) : entriesA.getD n 0 = (tableA.getLsbD n).toNat := by
  revert n
  decide

theorem entriesB_getD {n : Nat} (hn : n < 16) : entriesB.getD n 0 = (tableB.getLsbD n).toNat := by
  revert n
  decide

theorem entriesC_getD {n : Nat} (hn : n < 32) : entriesC.getD n 0 = (tableC.getLsbD n).toNat := by
  revert n
  decide

theorem filterEntries_eq (x : BitVec 20) :
    filterEntries x = (tableC.getLsbD (lookupIndex x.toNat)).toNat := by
  have hnibble (n : Nat) : n % 16 < 16 := Nat.mod_lt n (by decide)
  rw [← entriesC_getD (lookupIndex_lt _), filterEntries, entriesA_getD (hnibble _),
    entriesB_getD (hnibble _), entriesA_getD (hnibble _), entriesA_getD (hnibble _),
    entriesB_getD (by omega)]
  rfl

/-! ### The shift-and-mask form -/

/-- A table shifted up by `k` and down by `n`, masked to its bit `k`, is the entry `n` at weight `2 ^ k`. -/
theorem shift_and_mask {w : Nat} (table : BitVec w) (k n : Nat) :
    table.toNat <<< k >>> n &&& 2 ^ k = (table.getLsbD n).toNat * 2 ^ k := by
  rw [Nat.and_two_pow, Nat.testBit_shiftRight, Nat.testBit_shiftLeft, decide_eq_true (by omega),
    Bool.true_and, Nat.add_sub_cancel, BitVec.testBit_toNat]

theorem filterShiftMask_eq (x : BitVec 20) :
    filterShiftMask x = (tableC.getLsbD (lookupIndex x.toNat)).toNat := by
  have hfinal := shift_and_mask tableC 0 (lookupIndex x.toNat)
  rw [Nat.pow_zero, Nat.mul_one] at hfinal
  rw [← hfinal, lookupIndex, ← or_weighted_bits]
  simp only [← shift_and_mask]
  rfl

end Sys2Proof.Proofs
end

section
/-! `FILT`, `PAR` and the keystream bit (spec/41_filter_parity.md): the next state of each command, given
its one-bit result. -/

namespace Sys2Proof.Proofs

open Sys2Proof.Machine Sys2Proof.Laws Sys2Proof.Statements

/-! ### Results of one bit -/

theorem resultField_ofBool (b : Bool) : resultField (BitVec.ofBool b) = bitResult b := by
  cases b <;> rfl

theorem toNat_bitResult (b : Bool) : (bitResult b).toNat = b.toNat := by
  cases b <;> rfl

theorem bitResult_eq_ofNat (b : Bool) : bitResult b = BitVec.ofNat 48 b.toNat := by
  cases b <;> rfl

/-! ### One equation per command -/

theorem exec_filt {x : BitVec 24} {q : BitVec 48}
    (h : bitResult (filter20 (x.setWidth 20)) = q) (s : State) :
    exec (.filt x) s = .next { s with rsp := legalAnswer s q } := by
  rw [exec_eq, resultOf, resultField_ofBool, ← BitVec.setWidth_eq_extractLsb' (by decide), h]
  rfl

theorem exec_par {x : BitVec 32} {q : BitVec 48} (h : bitResult (parity32 x) = q) (s : State) :
    exec (.par x) s = .next { s with rsp := legalAnswer s q } := by
  rw [exec_eq, resultOf, resultField_ofBool, h]
  rfl

/-- `STBIT` answers the keystream bit of the state before the step, the filter of `ODD[19:0]`. -/
theorem exec_stbit (e : Bool) (inp : BitVec 1) (s : State) :
    exec (.stbit e inp) s = .next { s.setCipher (step1 s.cipher (inp.getLsbD 0) e).2 with
      rsp := legalAnswer s (bitResult (filter20 (s.odd.setWidth 20))) } := by
  rw [exec_eq, resultOf, resultField_ofBool, step1_keystream, Cipher.keystream,
    ← BitVec.setWidth_eq_extractLsb' (by decide)]
  rfl

/-! ### Parity and the number of one bits -/

/-- The XOR of the low `n` bits is the parity of how many of them are 1 (rule R92). -/
theorem length_filter_range_mod_two {w : Nat} (x : BitVec w) (n : Nat) :
    ((List.range n).filter fun i => x.getLsbD i).length % 2 = (xorBits x n).toNat := by
  rw [← List.countP_eq_length_filter]
  induction n with
  | zero => rfl
  | succ n ih =>
    rw [List.range_succ, List.countP_append, List.countP_singleton, Nat.add_mod, ih, xorBits]
    cases xorBits x n <;> cases x.getLsbD n <;> rfl

/-! ### The statements -/

/-- Settles O27: the listed entries and the shift-and-mask form each make the lookups of `filter20`. -/
theorem filterTables : Obligations.FilterTables := by
  refine ⟨fun x => ⟨?_, ?_⟩, fun e inp s => ⟨_, exec_stbit e inp s, rfl, exec_filt rfl s⟩⟩
  · rw [filter20_eq, filterEntries_eq]
  · rw [filter20_eq, filterShiftMask_eq]

/-- Settles O29: the result is the XOR of the 32 bits, which is their number of ones mod 2. -/
theorem parEffect : Obligations.ParEffect := by
  refine ⟨encodedAs_instrOf .PAR, fun x s => exec_par ?_ s, parity32_xor, fun _ => rfl, fun s =>
    ⟨exec_par (by decide) s, exec_par (by decide) s, exec_par (by decide) s,
      exec_par (by decide) s⟩⟩
  rw [length_filter_range_mod_two, bitResult_eq_ofNat, parity32]

/-- Settles O28: the result is the filter of the low 20 bits, which the shift-and-mask form computes. -/
theorem filtEffect : Obligations.FiltEffect := by
  refine ⟨encodedAs_instrOf .FILT, fun x s => ⟨_, exec_filt rfl s, ?_⟩, fun s =>
    ⟨exec_filt (by decide) s, exec_filt (by decide) s, exec_filt (by decide) s,
      exec_filt (by decide) s⟩, by decide⟩
  rw [toNat_bitResult, filter20_eq, filterShiftMask_eq]

/-- Settles O30: each vector is one value of the filter or of the parity. -/
theorem filterAndParityVectors : Obligations.FilterAndParityVectors := fun s =>
  ⟨exec_filt (by decide) s, exec_filt (by decide) s, exec_filt (by decide) s,
    exec_filt (by decide) s, exec_filt (by decide) s, exec_filt (by decide) s,
    exec_filt (by decide) s, exec_filt (by decide) s, exec_filt (by decide) s,
    exec_par (by decide) s, exec_par (by decide) s, exec_par (by decide) s,
    exec_par (by decide) s, exec_par (by decide) s⟩

end Sys2Proof.Proofs
end

section
/-! Single steps one after the other (spec/00_scope.md rule R9): the states a run passes through, a run over
a part of its operand, and encrypted against plain feedback (rule R107). -/

namespace Sys2Proof.Proofs

open Sys2Proof.Machine Sys2Proof.Laws

section
variable {w : Nat} (one : Cipher → Bool → Bool → Bool × Cipher) (e : Bool) (arg : BitVec w)

/-! ### The states a run passes through -/

/-- The cipher state after the steps at the first `n` positions of `l`. -/
def cipherAt (l : List Nat) (c : Cipher) (n : Nat) : Cipher :=
  (runSteps one e arg (l.take n) 0#w c).2

@[simp] theorem cipherAt_zero (l : List Nat) (c : Cipher) : cipherAt one e arg l c 0 = c := rfl

/-- After all its positions a run is at its final state. -/
theorem cipherAt_length (l : List Nat) (c : Cipher) (q : BitVec w) :
    cipherAt one e arg l c l.length = (runSteps one e arg l q c).2 := by
  rw [cipherAt, List.take_length]
  exact runSteps_state one e arg l _ q c

/-- The result bit at a position is that of the last step there. -/
theorem runSteps_bit_of_last {l₁ l₂ : List Nat} {k : Nat} (hk : k < w) (hlast : k ∉ l₂) (q : BitVec w)
    (c : Cipher) :
    (runSteps one e arg (l₁ ++ k :: l₂) q c).1.getLsbD k =
      (one (runSteps one e arg l₁ q c).2 (arg.getLsbD k) e).1 := by
  rw [runSteps_append, runSteps_cons, runSteps_bit_of_notMem _ _ _ _ _ _ _ hlast, getLsbD_writeBit,
    if_pos ⟨rfl, hk⟩]

/-- The step at position `l[i]` leads from the `i`-th state to the next, and its bit stands at that position
of the result. -/
theorem one_cipherAt {l : List Nat} (hl : l.Nodup) (hw : ∀ k ∈ l, k < w) (c : Cipher) (q : BitVec w)
    {i : Nat} (hi : i < l.length) :
    one (cipherAt one e arg l c i) (arg.getLsbD l[i]) e =
      ((runSteps one e arg l q c).1.getLsbD l[i], cipherAt one e arg l c (i + 1)) := by
  have hsplit : l.take i ++ l[i] :: l.drop (i + 1) = l := by simp
  have hlast : l[i] ∉ l.drop (i + 1) :=
    (List.nodup_cons.mp (hsplit ▸ hl).of_append_right).1
  have hbit := runSteps_bit_of_last one e arg (l₁ := l.take i) (hw _ (l.getElem_mem hi)) hlast q c
  rw [hsplit, runSteps_state one e arg _ q 0#w] at hbit
  refine Prod.ext hbit.symm ?_
  change _ = cipherAt one e arg l c (i + 1)
  rw [cipherAt, cipherAt, List.take_add_one, List.getElem?_eq_getElem hi, runSteps_append]
  rfl

/-! ### A run over a part of the operand -/

/-- Writing bit `k + j` of a value writes bit `j` of its part from `k` on. -/
theorem extractLsb'_writeBit {k n j : Nat} (hk : k + n ≤ w) (v : BitVec w) (b : Bool) :
    (writeBit v (k + j) b).extractLsb' k n = writeBit (v.extractLsb' k n) j b := by
  refine BitVec.eq_of_getLsbD_eq fun i hi => ?_
  rw [BitVec.getLsbD_extractLsb', getLsbD_writeBit, getLsbD_writeBit, BitVec.getLsbD_extractLsb']
  by_cases hij : i = j
  · simp [hij, show k + j < w by omega, show j < n by omega]
  · simp [hij]

/-- A run over the part of the operand from bit `k` on is the run over the whole operand at the positions
moved up by `k`. -/
theorem runSteps_extractLsb' {k n : Nat} (hk : k + n ≤ w) {l : List Nat} (hl : ∀ j ∈ l, j < n)
    (q : BitVec w) (c : Cipher) :
    runSteps one e (arg.extractLsb' k n) l (q.extractLsb' k n) c =
      ((runSteps one e arg (l.map (k + ·)) q c).1.extractLsb' k n,
        (runSteps one e arg (l.map (k + ·)) q c).2) := by
  induction l generalizing q c with
  | nil => rfl
  | cons j js ih =>
    obtain ⟨hj, hjs⟩ := List.forall_mem_cons.mp hl
    have hbit : (arg.extractLsb' k n).getLsbD j = arg.getLsbD (k + j) := by
      rw [BitVec.getLsbD_extractLsb', decide_eq_true hj, Bool.true_and]
    rw [List.map_cons, runSteps_cons, runSteps_cons, hbit, ← extractLsb'_writeBit hk, ih hjs]

/-- A run leaves the bits of the result outside its positions as they are. -/
theorem extractLsb'_runSteps_of_notMem {k n : Nat} {l : List Nat} (h : ∀ j < n, k + j ∉ l)
    (q : BitVec w) (c : Cipher) :
    (runSteps one e arg l q c).1.extractLsb' k n = q.extractLsb' k n := by
  refine BitVec.eq_of_getLsbD_eq fun j hj => ?_
  rw [BitVec.getLsbD_extractLsb', BitVec.getLsbD_extractLsb',
    runSteps_bit_of_notMem one e arg l q c _ (h j hj)]

end

/-! ### Encrypted feedback is plain feedback of the decrypted bit -/

/-- The feedback takes the keystream bit as it takes the input bit (rule R100). -/
theorem fb_encrypted (odd even : BitVec 24) (inp : Bool) :
    fb odd even inp true = fb odd even (inp ^^ filter20 (odd.extractLsb' 0 20)) false := by
  simp [fb]

/-- A step with encrypted feedback is the plain step on the decrypted bit (rule R107). -/
theorem step1_encrypted (c : Cipher) (inp : Bool) :
    step1 c inp true = step1 c (inp ^^ c.keystream) false := by
  simp only [step1, fb_encrypted, Cipher.keystream]

/-- The two forms of a step leave the same state exactly when the keystream bit is 0 (rule R105). -/
theorem step1_state_eq_iff (c : Cipher) (inp : Bool) :
    (step1 c inp false).2 = (step1 c inp true).2 ↔ c.keystream = false := by
  rw [step1_encrypted]
  constructor
  · intro h
    have hbit := congrArg (fun d : Cipher => d.odd.getLsbD 0) h
    simp only [getLsbD_step1_odd, if_true, fb] at hbit
    cases hks : c.keystream with
    | false => rfl
    | true => simp [hks] at hbit
  · intro h
    rw [h, Bool.xor_false]

/-- A plain run whose input is the encrypted run's, decrypted by its result, is that run (rule R107). -/
theorem runSteps_encrypted {w : Nat} {l : List Nat} (hl : l.Nodup) (hw : ∀ k ∈ l, k < w)
    (arg arg' q : BitVec w) (c : Cipher)
    (harg : ∀ k ∈ l, arg'.getLsbD k =
      (arg.getLsbD k ^^ (runSteps step1 true arg l q c).1.getLsbD k)) :
    runSteps step1 false arg' l q c = runSteps step1 true arg l q c := by
  induction l generalizing q c with
  | nil => rfl
  | cons k ks ih =>
    obtain ⟨hk, hks⟩ := List.nodup_cons.mp hl
    obtain ⟨hkw, hksw⟩ := List.forall_mem_cons.mp hw
    obtain ⟨hbit, hbits⟩ := List.forall_mem_cons.mp harg
    have hfirst : (runSteps step1 true arg (k :: ks) q c).1.getLsbD k = c.keystream :=
      runSteps_bit_of_last step1 true arg (l₁ := []) hkw hk q c
    have hstep : step1 c (arg'.getLsbD k) false = step1 c (arg.getLsbD k) true := by
      rw [hbit, hfirst, step1_encrypted]
    rw [runSteps_cons, runSteps_cons, hstep]
    exact ih hks hksw _ _ hbits

end Sys2Proof.Proofs
end

section
/-! The stepping commands (spec/42_forward_step.md): each is a run over the positions of its operand, and
several of them in a row are one run over the parts of a longer operand (rule R106). -/

namespace Sys2Proof.Proofs

open Sys2Proof.Machine Sys2Proof.Laws Sys2Proof.Statements

/-- The commands `mk x` run the step `one` with the flag `e` over the positions `l` of their operand `x`. -/
structure RunsOver (one : Cipher → Bool → Bool → Bool × Cipher) (e : Bool) {n : Nat} (l : List Nat)
    (mk : BitVec n → Instr) : Prop where
  data : ∀ x s, dataAfter (mk x) s = s.setCipher (runSteps one e x l 0#n s.cipher).2
  result : ∀ x s, resultOf (mk x) s = resultField (runSteps one e x l 0#n s.cipher).1

theorem runsOver_stbit (e : Bool) : RunsOver step1 e [0] (Instr.stbit e) where
  data _ _ := rfl
  result x s := by
    rw [resultOf, runSteps_cons, runSteps_nil]
    cases (step1 s.cipher (x.getLsbD 0) e).1 <;> rfl

theorem runsOver_stbyte (e : Bool) : RunsOver step1 e byteOrder (Instr.stbyte e) :=
  ⟨fun _ _ => rfl, fun _ _ => rfl⟩

theorem runsOver_stword (e : Bool) : RunsOver step1 e wordOrder (Instr.stword e) :=
  ⟨fun _ _ => rfl, fun _ _ => rfl⟩

section
variable {one : Cipher → Bool → Bool → Bool × Cipher} {e : Bool} {n : Nat} {l : List Nat}
  {mk : BitVec n → Instr} (h : RunsOver one e l mk)
include h

/-- The whole next state of a stepping command. -/
theorem RunsOver.exec_eq (x : BitVec n) (s : State) :
    exec (mk x) s = .next { s with
      odd := (runSteps one e x l 0#n s.cipher).2.odd
      even := (runSteps one e x l 0#n s.cipher).2.even
      rsp := legalAnswer s ((runSteps one e x l 0#n s.cipher).1.setWidth 48) } := by
  rw [Laws.exec_eq, h.data, h.result]
  rfl

/-- The next state in values, given those of the run and of its result as a field. -/
theorem RunsOver.exec_of_run {x q : BitVec n} {o ev : BitVec 24} {s : State} {v : BitVec 48}
    (hrun : runSteps one e x l 0#n s.cipher = (q, ⟨o, ev⟩)) (hq : q.setWidth 48 = v) :
    exec (mk x) s = .next { s with odd := o, even := ev, rsp := legalAnswer s v } := by
  rw [h.exec_eq, hrun, ← hq]

theorem RunsOver.issue_eq (x : BitVec n) (s : State) :
    issue (mk x) s = some (resultField (runSteps one e x l 0#n s.cipher).1,
      (s.setCipher (runSteps one e x l 0#n s.cipher).2).answer
        (resultField (runSteps one e x l 0#n s.cipher).1)) := by
  rw [issue_of_decode (decode_encode _), h.data, h.result]

/-- The states a stepping command passes through, one for each step, and its result bits. -/
theorem RunsOver.exec_steps (hl : l.Nodup) (hw : ∀ k ∈ l, k < n) (x : BitVec n) (s : State) :
    ∃ (c : Nat → Cipher) (q : BitVec n), c 0 = s.cipher ∧
      (∀ (i : Nat) (hi : i < l.length),
        one (c i) (x.getLsbD l[i]) e = (q.getLsbD l[i], c (i + 1))) ∧
      exec (mk x) s = .next { s with
        odd := (c l.length).odd, even := (c l.length).even, rsp := legalAnswer s (q.setWidth 48) } :=
  ⟨cipherAt one e x l s.cipher, (runSteps one e x l 0#n s.cipher).1, rfl,
    fun _ hi => one_cipherAt one e x hl hw s.cipher 0#n hi,
    by rw [h.exec_eq, ← cipherAt_length]⟩

/-- Stepping commands on the parts of `arg` from the bits `ks` on are one run over `arg`, each part of whose
result is the result of its command. -/
theorem RunsOver.issueAll_parts (hl : ∀ j, j ∈ l ↔ j < n) {w : Nat} (arg : BitVec w) {ks : List Nat}
    (hks : ∀ k ∈ ks, k + n ≤ w) (hnodup : (ks.flatMap fun k => l.map (k + ·)).Nodup)
    (q : BitVec w) (s : State) :
    ∃ r, issueAll (ks.map fun k => mk (arg.extractLsb' k n)) s =
      some (ks.map fun k => resultField
          ((runSteps one e arg (ks.flatMap fun k => l.map (k + ·)) q s.cipher).1.extractLsb' k n),
        { s.setCipher (runSteps one e arg (ks.flatMap fun k => l.map (k + ·)) q s.cipher).2 with
          rsp := r }) := by
  induction ks generalizing q s with
  | nil => exact ⟨s.rsp, rfl⟩
  | cons k ks ih =>
    obtain ⟨hk, hks⟩ := List.forall_mem_cons.mp hks
    rw [List.flatMap_cons] at hnodup
    obtain ⟨-, hnodup, hdisj⟩ := List.nodup_append'.mp hnodup
    have hpart : runSteps one e (arg.extractLsb' k n) l 0#n s.cipher =
        ((runSteps one e arg (l.map (k + ·)) q s.cipher).1.extractLsb' k n,
          (runSteps one e arg (l.map (k + ·)) q s.cipher).2) := by
      rw [runSteps_result one e _ l _ (q.extractLsb' k n) s.cipher fun i hi => (hl i).mpr hi,
        runSteps_extractLsb' one e arg hk fun j hj => (hl j).mp hj]
    have hlater : ∀ j < n, k + j ∉ ks.flatMap fun k => l.map (k + ·) := fun j hj =>
      hdisj (List.mem_map_of_mem ((hl j).mpr hj))
    obtain ⟨r, hr⟩ := ih hks hnodup (runSteps one e arg (l.map (k + ·)) q s.cipher).1
      ((s.setCipher (runSteps one e arg (l.map (k + ·)) q s.cipher).2).answer
        (resultField ((runSteps one e arg (l.map (k + ·)) q s.cipher).1.extractLsb' k n)))
    refine ⟨r, ?_⟩
    rw [List.map_cons, issueAll_cons, h.issue_eq, hpart, Option.bind_some, hr, List.map_cons,
      List.flatMap_cons, runSteps_append, extractLsb'_runSteps_of_notMem one e arg hlater]
    rfl

end

/-- Encrypted feedback of `x` leaves the state and the response of plain feedback of `x` decrypted by the
result (rule R107). -/
theorem RunsOver.exec_encrypted {n : Nat} {l : List Nat} {mk mk' : BitVec n → Instr}
    (h : RunsOver step1 true l mk) (h' : RunsOver step1 false l mk') (hl : l.Nodup)
    (hw : ∀ k ∈ l, k < n) (x : BitVec n) (s : State) : ∃ (ks : BitVec n) (t : State),
    exec (mk x) s = .next t ∧ t.rsp = legalAnswer s (ks.setWidth 48) ∧
      exec (mk' (x ^^^ ks)) s = .next t := by
  refine ⟨_, _, h.exec_eq x s, rfl, ?_⟩
  rw [h'.exec_eq, runSteps_encrypted hl hw x _ _ _ fun _ _ => BitVec.getLsbD_xor ..]

end Sys2Proof.Proofs
end

section
/-! The keys before and after a run of forward steps (rules R23, R104): each step moves the 48-bit register
one place down, and the key is that register read in the order of rule R82. -/

namespace Sys2Proof.Proofs

open Sys2Proof.Machine Sys2Proof.Laws Sys2Proof.Statements

/-- A chain of forward steps moves every bit of the register down by its length. -/
theorem conceptual_chain {c : Nat → Cipher} {inp : Nat → Bool} {e : Bool} {n : Nat}
    (hc : ∀ i < n, (step1 (c i) (inp i) e).2 = c (i + 1)) {j : Nat} (hj : j + n < 48) :
    conceptual (c n).odd (c n).even j = conceptual (c 0).odd (c 0).even (j + n) := by
  induction n generalizing j with
  | zero => rfl
  | succ n ih =>
    rw [← hc n (by omega), conceptual_step1_shift _ _ _ (by omega),
      ih (fun i hi => hc i (by omega)) (by omega), Nat.add_right_comm, Nat.add_assoc]

/-- The key of a cipher state, bit by bit from the register. -/
theorem getLsbD_unpackKey (c : Cipher) {i : Nat} (hi : i < 48) :
    (unpackKey c).getLsbD ((47 - i) ^^^ 7) = conceptual c.odd c.even i := by
  rw [← conceptual_packKey _ hi, packKey_unpackKey]

/-- The low two bytes of the key are the top two after 32 forward steps (rule R104). -/
theorem unpackKey_chain {c : Nat → Cipher} {inp : Nat → Bool} {e : Bool}
    (hc : ∀ i < 32, (step1 (c i) (inp i) e).2 = c (i + 1)) :
    (unpackKey (c 32)).extractLsb' 32 16 = (unpackKey (c 0)).extractLsb' 0 16 := by
  have hpos : ∀ j < 16, 15 - (j ^^^ 7) + 32 < 48 ∧ (47 - (15 - (j ^^^ 7))) ^^^ 7 = 32 + j ∧
      (47 - (15 - (j ^^^ 7) + 32)) ^^^ 7 = 0 + j := by decide
  refine BitVec.eq_of_getLsbD_eq fun j hj => ?_
  obtain ⟨hlt, hnew, hold⟩ := hpos j hj
  rw [BitVec.getLsbD_extractLsb', BitVec.getLsbD_extractLsb', ← hnew, ← hold,
    getLsbD_unpackKey _ (by omega), getLsbD_unpackKey _ hlt, conceptual_chain hc hlt]

end Sys2Proof.Proofs
end

section
/-! The values the spec prints for steps from the zero state, the state of all ones and the example key. -/

namespace Sys2Proof.Proofs

open Sys2Proof.Machine Sys2Proof.Statements

/-- The cipher state of `0xA0A1A2A3A4A5`, the source's example key (`packKey_example`). -/
def exampleCipher : Cipher := ⟨0x33BB33#24, 0x08084C#24⟩

@[simp] theorem exampleKeyState_cipher (s : State) : (exampleKeyState s).cipher = exampleCipher := rfl

/-! ### One step -/

theorem step1_zero_in_zero : step1 ⟨0#24, 0#24⟩ false false = (false, ⟨0#24, 0#24⟩) := by
  decide +kernel
theorem step1_zero_in_one : step1 ⟨0#24, 0#24⟩ true false = (false, ⟨1#24, 0#24⟩) := by
  decide +kernel
theorem step1_ones : step1 ⟨0xFFFFFF#24, 0xFFFFFF#24⟩ false false =
    (true, ⟨0xFFFFFE#24, 0xFFFFFF#24⟩) := by
  decide +kernel
theorem step1_example : step1 exampleCipher false false = (false, ⟨0x101098#24, 0x33BB33#24⟩) := by
  decide +kernel

/-! ### A byte -/

theorem runByte_zero : runSteps step1 false 0#8 byteOrder 0#8 ⟨0#24, 0#24⟩ =
    (0#8, ⟨0#24, 0#24⟩) := by decide +kernel
theorem runByte_example : runSteps step1 false 0#8 byteOrder 0#8 exampleCipher =
    (0x70#8, ⟨0x3BB339#24, 0x8084C4#24⟩) := by decide +kernel
theorem runByte_example_encrypted : runSteps step1 true 0#8 byteOrder 0#8 exampleCipher =
    (0x70#8, ⟨0x3BB33B#24, 0x8084C7#24⟩) := by decide +kernel

theorem unpackKey_after_byte : unpackKey ⟨0x3BB339#24, 0x8084C4#24⟩ = 0xA1A2A3A4A586#48 := by decide
theorem unpackKey_after_encrypted_byte :
    unpackKey ⟨0x3BB33B#24, 0x8084C7#24⟩ = 0xA1A2A3A4A5F6#48 := by decide

/-! ### A word -/

theorem runWord_zero : runSteps step1 false 0#32 wordOrder 0#32 ⟨0#24, 0#24⟩ =
    (0#32, ⟨0#24, 0#24⟩) := by decide +kernel
theorem runWord_example : runSteps step1 false 0x12345678#32 wordOrder 0#32 exampleCipher =
    (0x30794609#32, ⟨0x33064F#24, 0x4C7137#24⟩) := by decide +kernel

theorem runWord_example_in_zero : runSteps step1 false 0#32 wordOrder 0#32 exampleCipher =
    (0x70FDEA9D#32, ⟨0x339CE0#24, 0x4C4FB5#24⟩) := by decide +kernel
theorem runWord_example_in_zero_encrypted : runSteps step1 true 0#32 wordOrder 0#32 exampleCipher =
    (0x7039CB0B#32, ⟨0x33B5EC#24, 0x4C74E2#24⟩) := by decide +kernel

theorem unpackKey_after_word : unpackKey ⟨0x33064F#24, 0x4C7137#24⟩ = 0xA4A5546858FE#48 := by decide

end Sys2Proof.Proofs
end

section
/-! `STBIT`, `STBYTE` and `STWORD` (spec/42_forward_step.md): the statements, from the step of rule R101, the
runs over it and the printed values. -/

namespace Sys2Proof.Proofs

open Sys2Proof.Machine Sys2Proof.Laws Sys2Proof.Statements

/-! ### The single step -/

theorem keystream_eq (c : Cipher) : c.keystream = filter20 (c.odd.setWidth 20) := by
  rw [Cipher.keystream, BitVec.setWidth_eq_extractLsb' (by decide)]

/-- The bits that `LF_POLY_ODD` selects, as rule R90 lists them. -/
theorem xorAt_oddTaps (v : BitVec 24) : xorAt v oddTaps = parity24 (lfPolyOdd &&& v) := by
  simp [xorAt, oddTaps, parity24_lfPolyOdd]

/-- The bits that `LF_POLY_EVEN` selects, as rule R90 lists them. -/
theorem xorAt_evenTaps (v : BitVec 24) : xorAt v evenTaps = parity24 (lfPolyEven &&& v) := by
  simp [xorAt, evenTaps, parity24_lfPolyEven]

/-- The feedback of rule R100 as the XOR of the listed bits. -/
theorem fb_eq_xorAt (odd even : BitVec 24) (inp e : Bool) :
    fb odd even inp e = (xorAt odd oddTaps ^^ xorAt even evenTaps ^^ inp
      ^^ (e && filter20 (odd.setWidth 20))) := by
  rw [fb, parity24_xor, xorAt_oddTaps, xorAt_evenTaps, BitVec.setWidth_eq_extractLsb' (by decide)]

/-- The next state of `STBIT` in values, given those of its step and of its result. -/
theorem exec_stbit_of_step1 {e b : Bool} {inp : BitVec 1} {o ev : BitVec 24} {s : State} {v : BitVec 48}
    (hstep : step1 s.cipher (inp.getLsbD 0) e = (b, ⟨o, ev⟩)) (hb : bitResult b = v) :
    exec (.stbit e inp) s = .next { s with odd := o, even := ev, rsp := legalAnswer s v } := by
  rw [exec_eq, dataAfter, resultOf, hstep, resultField_ofBool, hb]
  rfl

/-- Settles O31: the new `ODD` is that of rule R101 bit by bit; with a keystream bit of 0 the two forms of
the step are one. -/
theorem stbitEffect : Obligations.StbitEffect := by
  refine ⟨encodedAs_instrOf .STBIT, fun e inp s =>
    ⟨(step1 s.cipher (inp.getLsbD 0) e).2.odd, exec_stbit e inp s, fun j hj => ?_, ?_⟩,
    fun s => ⟨exec_stbit_of_step1 step1_zero_in_zero rfl, exec_stbit_of_step1 step1_zero_in_one rfl,
      exec_stbit_of_step1 step1_ones rfl, exec_stbit_of_step1 step1_example rfl⟩, fun inp s h => ?_⟩
  · rw [getLsbD_step1_odd, if_neg j.succ_ne_zero, decide_eq_true (by omega), Bool.true_and]
    rfl
  · rw [getLsbD_step1_odd, if_pos rfl, fb_eq_xorAt]
    rfl
  · rw [exec_stbit, exec_stbit, (step1_state_eq_iff s.cipher _).mpr ((keystream_eq _).trans h)]

/-! ### A byte and a word -/

/-- The first bit of a byte's result is the keystream bit of the state before it, whatever `E` is. -/
theorem runByte_bit_zero (e : Bool) (inp : BitVec 8) (c : Cipher) :
    (runSteps step1 e inp byteOrder 0#8 c).1.getLsbD 0 = c.keystream :=
  runSteps_bit_of_last step1 e inp (l₁ := []) (k := 0) (l₂ := [1, 2, 3, 4, 5, 6, 7]) (by decide)
    (by decide) 0#8 c

/-- The eight steps of `STBYTE`, bit 0 first (rule R103). -/
theorem exec_stbyte_steps (e : Bool) (inp : BitVec 8) (s : State) :
    ∃ (c : Nat → Cipher) (q : BitVec 8), c 0 = s.cipher ∧
      (∀ i < 8, step1 (c i) (inp.getLsbD i) e = (q.getLsbD i, c (i + 1))) ∧
      exec (.stbyte e inp) s = .next { s with
        odd := (c 8).odd, even := (c 8).even, rsp := legalAnswer s (q.setWidth 48) } := by
  obtain ⟨c, q, h0, hstep, hexec⟩ := (runsOver_stbyte e).exec_steps byteOrder_nodup
    (fun k hk => (mem_byteOrder k).mp hk) inp s
  refine ⟨c, q, h0, fun i hi => ?_, hexec⟩
  have hpos : byteOrder[i]'hi = i := List.getElem_range _
  simpa only [hpos] using hstep i hi

/-- The 32 steps of `STWORD`, at the positions `i ^ 24` (rule R104). -/
theorem exec_stword_steps (e : Bool) (inp : BitVec 32) (s : State) :
    ∃ (c : Nat → Cipher) (q : BitVec 32), c 0 = s.cipher ∧
      (∀ i < 32, step1 (c i) (inp.getLsbD (i ^^^ 24)) e = (q.getLsbD (i ^^^ 24), c (i + 1))) ∧
      exec (.stword e inp) s = .next { s with
        odd := (c 32).odd, even := (c 32).even, rsp := legalAnswer s (q.setWidth 48) } := by
  obtain ⟨c, q, h0, hstep, hexec⟩ := (runsOver_stword e).exec_steps wordOrder_nodup
    (fun k hk => (mem_wordOrder k).mp hk) inp s
  refine ⟨c, q, h0, fun i hi => ?_, hexec⟩
  have hpos : wordOrder[i]'hi = i ^^^ 24 := by simp [wordOrder]
  simpa only [hpos] using hstep i hi

/-- Settles O32: the byte's steps one by one, its first result bit, and the printed values. -/
theorem stbyteEffect : Obligations.StbyteEffect := by
  refine ⟨encodedAs_instrOf .STBYTE, exec_stbyte_steps, fun inp s =>
    ⟨_, _, _, _, (runsOver_stbyte false).exec_eq _ s, rfl, (runsOver_stbyte true).exec_eq _ s, rfl, ?_⟩,
    fun s => ⟨(runsOver_stbyte false).exec_of_run runByte_zero rfl,
      (runsOver_stbyte false).exec_of_run runByte_example rfl, exec_rdkey unpackKey_after_byte⟩⟩
  rw [BitVec.getLsbD_setWidth, BitVec.getLsbD_setWidth, runByte_bit_zero, runByte_bit_zero]

/-- Settles O33: the word's steps one by one, the register 32 places further, and the printed values. -/
theorem stwordEffect : Obligations.StwordEffect := by
  refine ⟨encodedAs_instrOf .STWORD, exec_stword_steps, fun e inp s => ?_,
    fun s => ⟨(runsOver_stword false).exec_of_run runWord_zero rfl,
      (runsOver_stword false).exec_of_run runWord_example rfl, exec_rdkey unpackKey_after_word⟩⟩
  obtain ⟨c, q, h0, hstep, hexec⟩ := exec_stword_steps e inp s
  refine ⟨_, _, _, _, exec_rdkey rfl, hexec, exec_rdkey rfl, rfl, ?_⟩
  rw [← h0]
  exact unpackKey_chain fun i hi => congrArg Prod.snd (hstep i hi)

/-! ### The flag `E` -/

theorem bitResult_eq_one_iff (b : Bool) : bitResult b = 1#48 ↔ b = true := by
  revert b
  decide

/-- Settles O34: the result is that of the state before the step, and the states agree exactly when it
is 0. -/
theorem keystreamBitIgnoresE : Obligations.KeystreamBitIgnoresE := by
  refine ⟨fun inp s => ⟨_, _, _, exec_stbit false inp s, exec_stbit true inp s, rfl, rfl, ?_⟩,
    fun s => ⟨_, _, (runsOver_stword false).exec_of_run runWord_example_in_zero rfl,
      (runsOver_stword true).exec_of_run runWord_example_in_zero_encrypted rfl, rfl, rfl⟩,
    fun s => ⟨_, _, (runsOver_stbyte false).exec_of_run runByte_example rfl,
      (runsOver_stbyte true).exec_of_run runByte_example_encrypted rfl, rfl, rfl⟩,
    by decide +kernel, by decide +kernel⟩
  rw [bitResult_eq_one_iff, ← Bool.not_eq_false, ← cipher_odd, ← keystream_eq,
    ← step1_state_eq_iff s.cipher (inp.getLsbD 0), ne_eq, not_iff_not]
  constructor
  · exact fun h => congrArg State.cipher h
  · exact fun h => by rw [h]

/-- Settles O36: each of the three sizes is a run, and a run with encrypted feedback is the plain run on the
decrypted input. -/
theorem encryptedFeedbackLockstep : Obligations.EncryptedFeedbackLockstep :=
  ⟨(runsOver_stbit true).exec_encrypted (runsOver_stbit false) (by decide) (by decide),
    (runsOver_stbyte true).exec_encrypted (runsOver_stbyte false) byteOrder_nodup
      fun k hk => (mem_byteOrder k).mp hk,
    (runsOver_stword true).exec_encrypted (runsOver_stword false) wordOrder_nodup
      fun k hk => (mem_wordOrder k).mp hk⟩

/-- Settles O37: the two runs from the example key, and the keys of the states they leave. -/
theorem sourceByteVector : Obligations.SourceByteVector := fun _ =>
  ⟨_, _, (runsOver_stbyte false).exec_of_run runByte_example rfl, rfl, exec_rdkey unpackKey_after_byte,
    (runsOver_stbyte true).exec_of_run runByte_example_encrypted rfl, rfl,
    exec_rdkey unpackKey_after_encrypted_byte⟩

/-! ### Composition -/

/-- A part of one bit as a result. -/
theorem resultField_extractLsb'_one {w : Nat} (q : BitVec w) (i : Nat) :
    resultField (q.extractLsb' i 1) = bitResult (q.getLsbD i) := by
  have hbit : q.extractLsb' i 1 = BitVec.ofBool (q.getLsbD i) := BitVec.eq_of_getLsbD_eq fun j hj => by
    obtain rfl : j = 0 := by omega
    simp
  rw [hbit, resultField_ofBool]

/-- Settles O35: the bits of a byte are the parts of its run at the positions 0 to 7, the bytes of a word
those of its run from the positions 24, 16, 8 and 0 on. -/
theorem forwardComposition : Obligations.ForwardComposition := by
  refine ⟨fun e b s => ?_, fun e w s => ?_, by decide +kernel⟩
  · have hpos : ((List.range 8).flatMap fun k => [0].map (k + ·)) = byteOrder := by decide
    obtain ⟨r, hr⟩ := (runsOver_stbit e).issueAll_parts (by simp) b (ks := List.range 8)
      (fun k hk => List.mem_range.mp hk) (hpos ▸ byteOrder_nodup) 0#8 s
    rw [hpos] at hr
    simp only [resultField_extractLsb'_one] at hr
    exact ⟨_, _, r, (runsOver_stbyte e).exec_eq _ s, rfl, hr⟩
  · have hpos : ([24, 16, 8, 0].flatMap fun k => byteOrder.map (k + ·)) = wordOrder := by decide
    obtain ⟨r, hr⟩ := (runsOver_stbyte e).issueAll_parts mem_byteOrder w (ks := [24, 16, 8, 0])
      (by decide) (hpos ▸ wordOrder_nodup) 0#32 s
    rw [hpos] at hr
    exact ⟨_, _, r, (runsOver_stword e).exec_eq _ s, rfl, hr⟩

end Sys2Proof.Proofs
end

section
/-! A command that undoes another (spec/43_rollback.md rules R114 to R116): what it restores and returns,
for one command and for any sequence of them. -/

namespace Sys2Proof.Proofs

open Sys2Proof.Machine Sys2Proof.Laws Sys2Proof.Statements

/-- After the command `i`, the command `i'` restores every data register and returns the result of `i`,
whatever the response port holds. -/
structure Undoes (i' i : Instr) : Prop where
  data : ∀ s r, dataAfter i' { dataAfter i s with rsp := r } = { s with rsp := r }
  result : ∀ s r, resultOf i' { dataAfter i s with rsp := r } = resultOf i s

section
variable {i i' : Instr} (h : Undoes i' i)
include h

/-- The response of the undoing command is that of the command it undoes. -/
theorem Undoes.exec_eq (s : State) :
    ∃ t, exec i s = .next t ∧ exec i' t = .next { s with rsp := t.rsp } := by
  refine ⟨_, Laws.exec_eq i s, ?_⟩
  have hdata : dataAfter i' ((dataAfter i s).answer (resultOf i s)) =
      { s with rsp := ((dataAfter i s).answer (resultOf i s)).rsp } := h.data s _
  have hresult : resultOf i' ((dataAfter i s).answer (resultOf i s)) = resultOf i s := h.result s _
  rw [Laws.exec_eq, hdata, hresult, answer_rsp, dataAfter_err]
  rfl

theorem Undoes.issue_eq (s : State) (r : Option (BitVec 64)) :
    issue i' { dataAfter i s with rsp := r } =
      some (resultOf i s, ({ s with rsp := r } : State).answer (resultOf i s)) := by
  rw [issue_of_decode (decode_encode i'), h.data, h.result]

end

/-- A sequence of commands is undone by the commands that undo each, in reverse order (rule R116). -/
theorem issueAll_undone {inverse : Instr → Instr} {l : List Instr}
    (h : ∀ i ∈ l, Undoes (inverse i) i) (s : State) :
    ∃ (qs : List (BitVec 48)) (t : State) (r : Option (BitVec 64)), issueAll l s = some (qs, t) ∧
      issueAll (l.map inverse).reverse t = some (qs.reverse, { s with rsp := r }) := by
  induction l generalizing s with
  | nil => exact ⟨[], s, s.rsp, rfl, rfl⟩
  | cons i l ih =>
    obtain ⟨hi, hl⟩ := List.forall_mem_cons.mp h
    obtain ⟨qs, t, r, hforth, hback⟩ := ih hl ((dataAfter i s).answer (resultOf i s))
    refine ⟨resultOf i s :: qs, t, some (response s.err false 0#2 (resultOf i s)), ?_, ?_⟩
    · rw [issueAll_cons, issue_of_decode (decode_encode i), Option.bind_some, hforth]
      rfl
    · have hlast : issueAll [inverse i] { (dataAfter i s).answer (resultOf i s) with rsp := r } =
          some ([resultOf i s], ({ s with rsp := r } : State).answer (resultOf i s)) := by
        rw [issueAll_cons]
        exact congrArg (Option.bind · _) (hi.issue_eq s r)
      rw [List.map_cons, List.reverse_cons, issueAll_append, hback, Option.bind_some, hlast,
        List.reverse_cons]
      rfl

/-! ### Runs over the same positions in reverse order -/

/-- If `two` undoes `one`, a run of `two` over the reversed positions undoes the run of `one`, whatever its
result held at the start. -/
theorem runSteps_undo {w : Nat} {one two : Cipher → Bool → Bool → Bool × Cipher}
    (hinv : ∀ c inp e, two (one c inp e).2 inp e = ((one c inp e).1, c)) {l : List Nat} (hl : l.Nodup)
    (hw : ∀ k < w, k ∈ l) (e : Bool) (arg q q' : BitVec w) (c : Cipher) :
    runSteps two e arg l.reverse q' (runSteps one e arg l q c).2 =
      ((runSteps one e arg l q c).1, c) := by
  rw [runSteps_result two e arg _ q' (runSteps one e arg l q c).1 _
    fun k hk => List.mem_reverse.mpr (hw k hk)]
  exact runSteps_reverse one e arg two hinv l hl q c

/-- A command that runs the inverse step over the reversed positions of the same operand undoes the
command. -/
theorem RunsOver.undoes {one two : Cipher → Bool → Bool → Bool × Cipher} {e : Bool} {n : Nat}
    {l l' : List Nat} {mk mk' : BitVec n → Instr} (h : RunsOver one e l mk)
    (h' : RunsOver two e l' mk') (hrev : l' = l.reverse)
    (hinv : ∀ c inp e, two (one c inp e).2 inp e = ((one c inp e).1, c)) (hl : l.Nodup)
    (hw : ∀ k < n, k ∈ l) (x : BitVec n) : Undoes (mk' x) (mk x) := by
  subst hrev
  have hcipher (s : State) (r : Option (BitVec 64)) :
      ({ dataAfter (mk x) s with rsp := r } : State).cipher =
        (runSteps one e x l 0#n s.cipher).2 := by rw [h.data]; rfl
  have hrun (s : State) := runSteps_undo hinv hl hw e x 0#n 0#n s.cipher
  constructor <;> intro s r
  · rw [h'.data, hcipher, hrun, h.data]
    rfl
  · rw [h'.result, hcipher, hrun, h.result]

/-- The states of a command that runs over the positions `l` from the last to the first, numbered in the
order of `l`. -/
theorem RunsOver.exec_steps_reverse {one : Cipher → Bool → Bool → Bool × Cipher} {e : Bool} {n : Nat}
    {l : List Nat} {mk : BitVec n → Instr} (h : RunsOver one e l.reverse mk) (hl : l.Nodup)
    (hw : ∀ k ∈ l, k < n) (x : BitVec n) (s : State) :
    ∃ (c : Nat → Cipher) (q : BitVec n), c l.length = s.cipher ∧
      (∀ (i : Nat) (hi : i < l.length),
        one (c (i + 1)) (x.getLsbD l[i]) e = (q.getLsbD l[i], c i)) ∧
      exec (mk x) s = .next { s with
        odd := (c 0).odd, even := (c 0).even, rsp := legalAnswer s (q.setWidth 48) } := by
  obtain ⟨c, q, hfirst, hstep, hexec⟩ := h.exec_steps (List.nodup_reverse.mpr hl)
    (fun k hk => hw k (List.mem_reverse.mp hk)) x s
  rw [List.length_reverse] at hexec
  refine ⟨fun i => c (l.length - i), q, ?_, fun i hi => ?_, hexec⟩
  · simpa only [Nat.sub_self] using hfirst
  · have hpos : l.reverse[l.length - (i + 1)]'(by rw [List.length_reverse]; omega) = l[i] := by
      rw [List.getElem_reverse]
      congr 1
      omega
    have hnext : l.length - (i + 1) + 1 = l.length - i := by omega
    simpa only [hpos, hnext] using hstep (l.length - (i + 1)) (by rw [List.length_reverse]; omega)

end Sys2Proof.Proofs
end

section
/-! `RBBIT`, `RBBYTE` and `RBWORD` (spec/43_rollback.md): the inverse step of rule R110, the runs over it,
the printed values, and the statements. -/

namespace Sys2Proof.Proofs

open Sys2Proof.Machine Sys2Proof.Laws Sys2Proof.Statements

/-! ### The single inverse step -/

/-- A state has exactly one predecessor for each input and flag: what the inverse step gives (rule R110). -/
theorem step1_state_eq_iff_eq_unstep1 (c d : Cipher) (inp e : Bool) :
    (step1 c inp e).2 = d ↔ c = (unstep1 d inp e).2 := by
  constructor
  · rintro rfl
    rw [unstep1_step1]
  · rintro rfl
    rw [step1_unstep1]

/-- The restored bit as the XOR of the listed bits: the taps of `LF_POLY_EVEN` below bit 23, one place up in
the shifted half (rule R110). -/
theorem restoredBit_eq_xorAt (c : Cipher) (inp e : Bool) :
    restoredBit c inp e = (c.odd.getLsbD 0 ^^ xorAt c.odd [3, 12, 17, 18, 19] ^^ xorAt c.even oddTaps
      ^^ inp ^^ (e && filter20 (c.even.setWidth 20))) := by
  have hwindow : c.even.setWidth 20 = c.even.extractLsb' 0 20 :=
    BitVec.setWidth_eq_extractLsb' (by decide)
  rw [restoredBit, xorAt_oddTaps, hwindow, parity24_lfPolyEven]
  simp [xorAt]

/-- `RBBIT` answers the keystream bit of the step it undoes, the filter of `EVEN[19:0]`. -/
theorem exec_rbbit (e : Bool) (inp : BitVec 1) (s : State) :
    exec (.rbbit e inp) s = .next { s with
      odd := s.even
      even := (unstep1 s.cipher (inp.getLsbD 0) e).2.even
      rsp := legalAnswer s (bitResult (filter20 (s.even.setWidth 20))) } := by
  rw [exec_eq, resultOf, resultField_ofBool, unstep1_keystream,
    ← BitVec.setWidth_eq_extractLsb' (by decide)]
  rfl

/-- `STBIT` leads to the registers of `s` from their predecessor only. -/
theorem exec_stbit_reaches_iff (e : Bool) (inp : BitVec 1) (c : Cipher) (s : State) :
    (∃ r, exec (.stbit e inp) { s with odd := c.odd, even := c.even } = .next { s with rsp := r }) ↔
      c = (unstep1 s.cipher (inp.getLsbD 0) e).2 := by
  rw [← step1_state_eq_iff_eq_unstep1]
  constructor
  · rintro ⟨r, h⟩
    rw [exec_stbit] at h
    exact congrArg State.cipher (Host.Outcome.next.inj h)
  · intro h
    have hexec := exec_stbit e inp (s.setCipher c)
    rw [setCipher_cipher, h] at hexec
    exact ⟨_, hexec⟩

/-- The next state of `RBBIT` in values, given those of its step and of its result. -/
theorem exec_rbbit_of_unstep1 {e b : Bool} {inp : BitVec 1} {o ev : BitVec 24} {s : State}
    {v : BitVec 48} (hstep : unstep1 s.cipher (inp.getLsbD 0) e = (b, ⟨o, ev⟩)) (hb : bitResult b = v) :
    exec (.rbbit e inp) s = .next { s with odd := o, even := ev, rsp := legalAnswer s v } := by
  rw [exec_eq, dataAfter, resultOf, hstep, resultField_ofBool, hb]
  rfl

theorem unstep1_zero_in_zero : unstep1 ⟨0#24, 0#24⟩ false false = (false, ⟨0#24, 0#24⟩) := by
  decide +kernel
theorem unstep1_zero_in_one : unstep1 ⟨0#24, 0#24⟩ true false = (false, ⟨0#24, 0x800000#24⟩) := by
  decide +kernel
theorem unstep1_after_example :
    unstep1 ⟨0x101098#24, 0x33BB33#24⟩ false false = (false, exampleCipher) := by
  simpa only [step1_example] using unstep1_step1 exampleCipher false false

/-- Settles O39: the new `EVEN` bit by bit, the one predecessor that the inverse step gives, and the restored
bit as the only one that the operand and the flag enter. -/
theorem rbbitEffect : Obligations.RbbitEffect := by
  refine ⟨encodedAs_instrOf .RBBIT, fun e inp s => ⟨_, exec_rbbit e inp s, fun j hj => ?_, ?_⟩,
    fun e inp s => ?_, fun e e' inp inp' s => ⟨_, _, exec_rbbit e inp s, exec_rbbit e' inp' s, rfl,
      fun j hj => ?_, ?_⟩, fun s => ⟨exec_rbbit_of_unstep1 unstep1_zero_in_zero rfl,
      exec_rbbit_of_unstep1 unstep1_zero_in_one rfl, exec_rbbit_of_unstep1 unstep1_after_example rfl⟩⟩
  · rw [getLsbD_unstep1_even, if_pos hj]
    rfl
  · rw [getLsbD_unstep1_even]
    exact restoredBit_eq_xorAt s.cipher _ e
  · have hpred := exec_stbit_reaches_iff e inp (s := s)
    refine ⟨(_, _), (hpred _).mpr rfl, fun c hc => ?_⟩
    have h := (hpred ⟨c.1, c.2⟩).mp hc
    exact Prod.ext (congrArg Cipher.odd h) (congrArg Cipher.even h)
  · simp only [getLsbD_unstep1_even, if_pos hj]
  · simp only [getLsbD_unstep1_even, Nat.lt_irrefl, if_false, decide_true, Bool.true_and,
      restoredBit_eq_xorAt, Bool.xor_assoc, Bool.xor_right_inj]
    rfl

/-! ### Runs of inverse steps -/

theorem runsOver_rbbit (e : Bool) : RunsOver unstep1 e [0] (Instr.rbbit e) where
  data _ _ := rfl
  result x s := by
    rw [resultOf, runSteps_cons, runSteps_nil]
    cases (unstep1 s.cipher (x.getLsbD 0) e).1 <;> rfl

theorem runsOver_rbbyte (e : Bool) : RunsOver unstep1 e byteOrder.reverse (Instr.rbbyte e) :=
  ⟨fun _ _ => rfl, fun _ _ => rfl⟩

theorem runsOver_rbword (e : Bool) : RunsOver unstep1 e wordOrder.reverse (Instr.rbword e) :=
  ⟨fun _ _ => rfl, fun _ _ => rfl⟩

/-- The byte run from the example key, undone. -/
theorem rollbackByte_example :
    runSteps unstep1 false 0#8 byteOrder.reverse 0#8 ⟨0x3BB339#24, 0x8084C4#24⟩ =
      (0x70#8, exampleCipher) := by
  simpa only [runByte_example] using runSteps_undo unstep1_step1 byteOrder_nodup
    (fun k => (mem_byteOrder k).mpr) false 0#8 0#8 0#8 exampleCipher

theorem rollbackWord_example : runSteps unstep1 false 0x1EFD8D5E#32 wordOrder.reverse 0#32
    ⟨0xFFFD66#24, 0xFF7FAE#24⟩ = (0xFF77FF5A#32, ⟨0xFFFFFF#24, 0xFFFFFF#24⟩) := by
  decide +kernel

theorem unpackKey_ones : unpackKey ⟨0xFFFFFF#24, 0xFFFFFF#24⟩ = 0xFFFFFFFFFFFF#48 := by decide

/-- Settles O40: the byte's inverse steps, each numbered by the bit of the operand that it undoes. -/
theorem rbbyteEffect : Obligations.RbbyteEffect := by
  refine ⟨encodedAs_instrOf .RBBYTE, fun e inp s => ?_, fun s =>
    (runsOver_rbbyte false).exec_of_run rollbackByte_example rfl⟩
  obtain ⟨c, q, hlast, hstep, hexec⟩ := (runsOver_rbbyte e).exec_steps_reverse byteOrder_nodup
    (fun k hk => (mem_byteOrder k).mp hk) inp s
  refine ⟨c, q, hlast, fun i hi => ?_, hexec⟩
  have hpos : byteOrder[i]'hi = i := List.getElem_range _
  simpa only [hpos] using hstep i hi

/-- Settles O41: the word's inverse steps, each numbered by its place in the order of `STWORD`. -/
theorem rbwordEffect : Obligations.RbwordEffect := by
  refine ⟨encodedAs_instrOf .RBWORD, fun e inp s => ?_, fun s =>
    ⟨_, (runsOver_rbword false).exec_of_run rollbackWord_example rfl, rfl, exec_rdkey unpackKey_ones⟩⟩
  obtain ⟨c, q, hlast, hstep, hexec⟩ := (runsOver_rbword e).exec_steps_reverse wordOrder_nodup
    (fun k hk => (mem_wordOrder k).mp hk) inp s
  refine ⟨c, q, hlast, fun i hi => ?_, hexec⟩
  have hpos : wordOrder[i]'hi = i ^^^ 24 := by simp [wordOrder]
  simpa only [hpos] using hstep i hi

/-! ### Forward and back -/

/-- The rollback of a forward command undoes it. -/
theorem undoes_undo {i : Instr} (h : isForward i = true) : Undoes (undo i) i := by
  cases i with
  | stbit e x =>
    exact (runsOver_stbit e).undoes (runsOver_rbbit e) rfl unstep1_step1 (by decide) (by decide) x
  | stbyte e x =>
    exact (runsOver_stbyte e).undoes (runsOver_rbbyte e) rfl unstep1_step1 byteOrder_nodup
      (fun k => (mem_byteOrder k).mpr) x
  | stword e x =>
    exact (runsOver_stword e).undoes (runsOver_rbword e) rfl unstep1_step1 wordOrder_nodup
      (fun k => (mem_wordOrder k).mpr) x
  | _ => cases h

/-- A forward command undoes its rollback. -/
theorem undo_undoes {i : Instr} (h : isForward i = true) : Undoes i (undo i) := by
  cases i with
  | stbit e x =>
    exact (runsOver_rbbit e).undoes (runsOver_stbit e) rfl step1_unstep1 (by decide) (by decide) x
  | stbyte e x =>
    exact (runsOver_rbbyte e).undoes (runsOver_stbyte e) byteOrder.reverse_reverse.symm step1_unstep1
      (List.nodup_reverse.mpr byteOrder_nodup)
      (fun k hk => List.mem_reverse.mpr ((mem_byteOrder k).mpr hk)) x
  | stword e x =>
    exact (runsOver_rbword e).undoes (runsOver_stword e) wordOrder.reverse_reverse.symm step1_unstep1
      (List.nodup_reverse.mpr wordOrder_nodup)
      (fun k hk => List.mem_reverse.mpr ((mem_wordOrder k).mpr hk)) x
  | _ => cases h

/-- Settles O42: each rollback command undoes its forward command. -/
theorem rollbackUndoesForward : Obligations.RollbackUndoesForward :=
  ⟨fun e x => (undoes_undo (i := .stbit e x) rfl).exec_eq,
    fun e x => (undoes_undo (i := .stbyte e x) rfl).exec_eq,
    fun e x => (undoes_undo (i := .stword e x) rfl).exec_eq⟩

/-- Settles O43: each forward command undoes its rollback command. -/
theorem forwardUndoesRollback : Obligations.ForwardUndoesRollback :=
  ⟨fun e x => (undo_undoes (i := .stbit e x) rfl).exec_eq,
    fun e x => (undo_undoes (i := .stbyte e x) rfl).exec_eq,
    fun e x => (undo_undoes (i := .stword e x) rfl).exec_eq⟩

/-- Settles O44: the bits of a byte are the parts of its run at the positions 7 to 0, the bytes of a word
those of its run from the positions 0, 8, 16 and 24 on; and each forward command of a list is undone by its
rollback. -/
theorem rollbackComposition : Obligations.RollbackComposition := by
  refine ⟨fun e b s => ?_, fun e w s => ?_,
    fun l s h => issueAll_undone (fun i hi => undoes_undo (h i hi)) s⟩
  · have hpos : ([7, 6, 5, 4, 3, 2, 1, 0].flatMap fun k => [0].map (k + ·)) = byteOrder.reverse := by
      decide
    obtain ⟨r, hr⟩ := (runsOver_rbbit e).issueAll_parts (by simp) b (ks := [7, 6, 5, 4, 3, 2, 1, 0])
      (by decide) (hpos ▸ List.nodup_reverse.mpr byteOrder_nodup) 0#8 s
    rw [hpos] at hr
    simp only [resultField_extractLsb'_one] at hr
    exact ⟨_, _, r, (runsOver_rbbyte e).exec_eq _ s, rfl, hr⟩
  · have hpos : ([0, 8, 16, 24].flatMap fun k => byteOrder.reverse.map (k + ·)) = wordOrder.reverse := by
      decide
    obtain ⟨r, hr⟩ := (runsOver_rbbyte e).issueAll_parts
      (fun j => List.mem_reverse.trans (mem_byteOrder j)) w (ks := [0, 8, 16, 24]) (by decide)
      (hpos ▸ List.nodup_reverse.mpr wordOrder_nodup) 0#32 s
    rw [hpos] at hr
    exact ⟨_, _, r, (runsOver_rbword e).exec_eq _ s, rfl, hr⟩

end Sys2Proof.Proofs
end

section
/-! `SWAP`, `PRLD` and `PRSTEP` (spec/44_prng_swap.md): the next state of each command, the byte swap byte by
byte, one iteration on the bit sequence of rule R122, and the statements but the period's. -/

namespace Sys2Proof.Proofs

open Sys2Proof.Machine Sys2Proof.Laws Sys2Proof.Statements

/-! ### One equation per command -/

theorem exec_swap {x : BitVec 32} {q : BitVec 48} (h : (swap32 x).setWidth 48 = q) (s : State) :
    exec (.swap x) s = .next { s with rsp := legalAnswer s q } := by
  rw [exec_eq, resultOf, resultField, h]
  rfl

theorem exec_prld (n : BitVec 32) (s : State) :
    exec (.prld n) s = .next { s with pr := n, rsp := legalAnswer s 0#48 } := exec_eq _ s

theorem exec_prstep {k v : BitVec 32} {s : State} (h : suc s.pr k.toNat = v) :
    exec (.prstep k) s = .next { s with pr := v, rsp := legalAnswer s (v.setWidth 48) } := by
  rw [exec_eq, dataAfter, resultOf, prngAdvance_eq_suc, h]
  rfl

/-- The two commands of `PRNGSUCC` (rule R145). -/
theorem prngsucc_eq (n k : BitVec 32) (s : State) :
    prngsucc n k s = some (suc n k.toNat, { s with
      pr := suc n k.toNat, rsp := legalAnswer s ((suc n k.toNat).setWidth 48) }) := by
  have hword : (resultField (suc n k.toNat)).setWidth 32 = suc n k.toNat := by simp [resultField]
  simp only [prngsucc, issue_of_decode (decode_encode _), Option.bind_eq_bind, Option.bind_some,
    dataAfter, resultOf, answer_pr, prngAdvance_eq_suc, hword]
  rfl

/-! ### The byte swap byte by byte (rule R120) -/

theorem byte_position_xor {m i : Nat} (hm : m < 4) (hi : i < 8) :
    (8 * m + i) ^^^ 24 = 8 * (3 - m) + i := by
  have h : ∀ m < 4, ∀ i < 8, (8 * m + i) ^^^ 24 = 8 * (3 - m) + i := by decide
  exact h m hm i hi

theorem extractLsb'_swap32 (x : BitVec 32) {m : Nat} (hm : m < 4) :
    (swap32 x).extractLsb' (8 * m) 8 = x.extractLsb' (8 * (3 - m)) 8 :=
  BitVec.eq_of_getLsbD_eq fun i hi => by
    rw [BitVec.getLsbD_extractLsb', BitVec.getLsbD_extractLsb', getLsbD_swap32 x _ (by omega),
      byte_position_xor hm hi]

/-! ### The bit sequence of rule R122 -/

theorem xor_24_lt {i : Nat} (hi : i < 32) : i ^^^ 24 < 32 := Nat.xor_lt_two_pow (n := 5) hi (by decide)

/-- `s[i]` of the `n`-th word is bit `i` of the `n`-th byte-swapped word. -/
theorem getLsbD_suc (x : BitVec 32) (n : Nat) {i : Nat} (hi : i < 32) :
    (suc x n).getLsbD (i ^^^ 24) = (prngStep^[n] (swap32 x)).getLsbD i := by
  rw [suc, getLsbD_swap32 _ _ (xor_24_lt hi), Nat.xor_xor_cancel_right]

theorem getLsbD_suc_succ_of_lt (x : BitVec 32) (n : Nat) {i : Nat} (hi : i < 31) :
    (suc x (n + 1)).getLsbD (i ^^^ 24) = (suc x n).getLsbD ((i + 1) ^^^ 24) := by
  rw [getLsbD_suc x _ (by omega), getLsbD_suc x _ (by omega), Function.iterate_succ_apply',
    getLsbD_prngStep, if_pos hi]

theorem getLsbD_suc_succ_last (x : BitVec 32) (n : Nat) :
    (suc x (n + 1)).getLsbD (31 ^^^ 24) =
      xorAt (suc x n) [16 ^^^ 24, 18 ^^^ 24, 19 ^^^ 24, 21 ^^^ 24] := by
  rw [getLsbD_suc x _ (by decide), Function.iterate_succ_apply', getLsbD_prngStep, if_neg (by decide)]
  simp (disch := decide) only [xorAt, getLsbD_suc x n, decide_true, Bool.true_and, Bool.xor_false,
    Bool.xor_assoc, -Nat.reduceXor]

@[simp] theorem suc_of_zero (n : Nat) : suc 0#32 n = 0#32 := by
  have hswap : swap32 0#32 = 0#32 := by decide
  rw [suc, hswap, Function.iterate_fixed prngStep_zero, hswap]

/-- The example of rule R124, the first vector of rule R127. -/
theorem suc_example : suc 0x12345678#32 32 = 0x8B92EC40#32 := by decide +kernel

/-! ### The statements -/

/-- Settles O45: the bytes of the result, and its swap, which is the operand. -/
theorem swapEffect : Obligations.SwapEffect :=
  ⟨encodedAs_instrOf .SWAP, fun x s => ⟨swap32 x, exec_swap rfl s,
    extractLsb'_swap32 x (m := 0) (by decide), extractLsb'_swap32 x (m := 1) (by decide),
    extractLsb'_swap32 x (m := 2) (by decide), extractLsb'_swap32 x (m := 3) (by decide),
    exec_swap (by rw [swap32_swap32]) s⟩,
    fun s => ⟨exec_swap (by decide) s, exec_swap (by decide) s, exec_swap (by decide) s⟩⟩

/-- Settles O46: the operand is the new `PR`, and the result is 0. -/
theorem prldEffect : Obligations.PrldEffect := ⟨encodedAs_instrOf .PRLD, exec_prld⟩

/-- Settles O47: the words of the sequence are those of `suc`, one iteration apart bit by bit. -/
theorem prstepEffect : Obligations.PrstepEffect :=
  ⟨encodedAs_instrOf .PRSTEP, fun _ s => ⟨suc s.pr, suc_zero _, fun n =>
    ⟨rfl, fun _ hi => getLsbD_suc_succ_of_lt s.pr n hi, getLsbD_suc_succ_last s.pr n⟩,
    exec_prstep rfl⟩,
    fun _ => exec_prstep (suc_zero _), fun _ _ => exec_prstep (suc_of_zero _),
    fun _ => exec_prstep suc_example⟩

/-- Settles O48: iterations add up, and below `2 ^ 32` so do the counts of two commands. -/
theorem prngAdditivity : Obligations.PrngAdditivity := by
  refine ⟨fun x a b => (suc_add x a b).symm, fun a b s hab =>
    ⟨_, _, exec_prstep rfl, exec_prstep rfl, exec_prstep ?_⟩⟩
  rw [BitVec.toNat_add_of_lt hab, suc_add]

/-- Settles O50: each vector is one value of `suc`, and `PRNGSUCC` returns `suc` of its operands. -/
theorem prngVectors : Obligations.PrngVectors :=
  ⟨suc_example, by decide +kernel, suc_zero, by decide +kernel, by decide +kernel,
    by decide +kernel, fun n k s => ⟨_, prngsucc_eq n k s, rfl, rfl, rfl, rfl, rfl⟩,
    fun s => by rw [prngsucc_eq]; exact congrArg some suc_example⟩

end Sys2Proof.Proofs
end

section
/-! The last sixteen bits of the nonce sequence as a linear feedback shift register of their own
(spec/44_prng_swap.md rule R126): what it has to do with `suc`, and the period of every nonzero word. -/

namespace Sys2Proof.Proofs

open Sys2Proof.Machine Sys2Proof.Laws Function

/-! ### The register -/

/-- The last sixteen bits `s[16..31]` of the bit sequence of `x` (rule R122). -/
def nonceTail (x : BitVec 32) : BitVec 16 := (swap32 x).extractLsb' 16 16

/-- One iteration on `s[16..31]` alone: the taps of rule R122 all lie there. -/
def lfsrStep (u : BitVec 16) : BitVec 16 :=
  BitVec.ofBool (u.getLsbD 0 ^^ u.getLsbD 2 ^^ u.getLsbD 3 ^^ u.getLsbD 5) ++ u.extractLsb' 1 15

theorem getLsbD_lfsrStep (u : BitVec 16) (i : Nat) :
    (lfsrStep u).getLsbD i =
      if i < 15 then u.getLsbD (i + 1)
      else (decide (i = 15) && (u.getLsbD 0 ^^ u.getLsbD 2 ^^ u.getLsbD 3 ^^ u.getLsbD 5)) := by
  change BitVec.getLsbD (w := 1 + 15) (BitVec.ofBool _ ++ u.extractLsb' 1 15) i = _
  rw [BitVec.getLsbD_append, BitVec.getLsbD_extractLsb', BitVec.getLsbD_ofBool, Nat.add_comm 1 i]
  split
  · simp [*]
  · have hi : i - 15 = 0 ↔ i = 15 := by omega
    simp only [hi]

theorem lfsrStep_zero : lfsrStep 0#16 = 0#16 := by decide

theorem getLsbD_nonceTail (x : BitVec 32) {i : Nat} (hi : i < 16) :
    (nonceTail x).getLsbD i = (swap32 x).getLsbD (16 + i) := by
  rw [nonceTail, BitVec.getLsbD_extractLsb', decide_eq_true hi, Bool.true_and]

/-- `s[16..31]` are the low two bytes of the word, in the other order. -/
theorem getLsbD_nonceTail_eq_xor (x : BitVec 32) {i : Nat} (hi : i < 16) :
    (nonceTail x).getLsbD i = (x.extractLsb' 0 16).getLsbD (i ^^^ 8) := by
  have hpos : ∀ i < 16, (16 + i) ^^^ 24 = i ^^^ 8 := by decide
  have hlt : i ^^^ 8 < 16 := Nat.xor_lt_two_pow (n := 4) hi (by decide)
  rw [getLsbD_nonceTail x hi, getLsbD_swap32 x _ (by omega), hpos i hi, BitVec.getLsbD_extractLsb',
    decide_eq_true hlt, Bool.true_and, Nat.zero_add]

theorem nonceTail_eq_zero_iff (x : BitVec 32) : nonceTail x = 0#16 ↔ x.extractLsb' 0 16 = 0#16 := by
  constructor <;> refine fun h => BitVec.eq_of_getLsbD_eq fun i hi => ?_
  · have hlt : i ^^^ 8 < 16 := Nat.xor_lt_two_pow (n := 4) hi (by decide)
    have hbit := getLsbD_nonceTail_eq_xor x hlt
    rw [h, Nat.xor_xor_cancel_right] at hbit
    rw [← hbit, BitVec.getLsbD_zero, BitVec.getLsbD_zero]
  · rw [getLsbD_nonceTail_eq_xor x hi, h, BitVec.getLsbD_zero, BitVec.getLsbD_zero]

/-! ### The register and `suc` -/

theorem swap32_suc (x : BitVec 32) (n : Nat) : swap32 (suc x n) = prngStep^[n] (swap32 x) :=
  swap32_swap32 _

theorem extractLsb'_prngStep (y : BitVec 32) :
    (prngStep y).extractLsb' 16 16 = lfsrStep (y.extractLsb' 16 16) :=
  BitVec.eq_of_getLsbD_eq fun i hi => by
    simp only [getLsbD_lfsrStep, BitVec.getLsbD_extractLsb', getLsbD_prngStep, decide_eq_true hi]
    by_cases h : i < 15
    · simp [h, show 16 + i < 31 by omega, show i + 1 < 16 by omega, Nat.add_assoc]
    · obtain rfl : i = 15 := by omega
      simp

/-- `n` iterations of the register follow `suc`. -/
theorem nonceTail_suc (x : BitVec 32) (n : Nat) :
    nonceTail (suc x n) = lfsrStep^[n] (nonceTail x) := by
  rw [nonceTail, swap32_suc]
  exact Semiconj.iterate_right extractLsb'_prngStep n (swap32 x)

/-- The register after a 32-bit count, by the repeated squaring of `prngAdvance`. -/
theorem iterate_lfsrStep_nonceTail (x k : BitVec 32) :
    lfsrStep^[k.toNat] (nonceTail x) = nonceTail (prngAdvance x k) := by
  rw [prngAdvance_eq_suc, nonceTail_suc]

/-- An iteration moves bits down only: a bit that comes from the start is the one `n` places up. -/
theorem getLsbD_iterate_prngStep (y : BitVec 32) {n i : Nat} (h : i + n < 32) :
    (prngStep^[n] y).getLsbD i = y.getLsbD (i + n) := by
  induction n generalizing i with
  | zero => rfl
  | succ n ih =>
    rw [iterate_succ_apply', getLsbD_prngStep, if_pos (by omega), ih (by omega)]
    congr 1
    omega

/-- After 16 iterations nothing is left of `s[0..15]`, and `s[16..31]` has taken its place. -/
theorem suc_sixteen_eq_iff (x y : BitVec 32) : suc x 16 = suc y 16 ↔ nonceTail x = nonceTail y := by
  have hhead (z : BitVec 32) {i : Nat} (hi : i < 16) :
      (swap32 (suc z 16)).getLsbD i = (nonceTail z).getLsbD i := by
    rw [swap32_suc, getLsbD_iterate_prngStep _ (by omega), getLsbD_nonceTail z hi, Nat.add_comm]
  constructor
  · intro h
    refine BitVec.eq_of_getLsbD_eq fun i hi => ?_
    rw [← hhead x hi, ← hhead y hi, h]
  · intro h
    have hswap : swap32 (suc x 16) = swap32 (suc y 16) := BitVec.eq_of_getLsbD_eq fun i hi => by
      by_cases h16 : i < 16
      · rw [hhead x h16, hhead y h16, h]
      · have htail (z : BitVec 32) :
            (swap32 (suc z 16)).getLsbD i = (lfsrStep^[16] (nonceTail z)).getLsbD (i - 16) := by
          rw [← nonceTail_suc, getLsbD_nonceTail _ (by omega), Nat.add_sub_cancel' (by omega)]
        rw [htail, htail, h]
    rw [← swap32_swap32 (suc x 16), hswap, swap32_swap32]

theorem suc_eq_suc_iff (x : BitVec 32) {m n : Nat} (hm : 16 ≤ m) (hn : 16 ≤ n) :
    suc x m = suc x n ↔ lfsrStep^[m - 16] (nonceTail x) = lfsrStep^[n - 16] (nonceTail x) := by
  rw [← Nat.sub_add_cancel hm, ← Nat.sub_add_cancel hn, suc_add, suc_add, suc_sixteen_eq_iff,
    nonceTail_suc, nonceTail_suc, Nat.add_sub_cancel, Nat.add_sub_cancel]

/-! ### The period of the register -/

/-- A point of period `n` that has period `n / p` for no prime factor `p` of `n` has least period `n`. -/
theorem minimalPeriod_eq_of_prime_quotients {α : Type*} {f : α → α} {a : α} {n : Nat}
    (hn : IsPeriodicPt f n a)
    (hp : ∀ p, p.Prime → p ∣ n → ¬ IsPeriodicPt f (n / p) a) : minimalPeriod f a = n := by
  obtain ⟨m, hm⟩ := hn.minimalPeriod_dvd
  by_contra hne
  have hm1 : m ≠ 1 := by
    rintro rfl
    exact hne (by rw [hm, Nat.mul_one])
  have hprime := Nat.minFac_prime hm1
  have hdvd : m.minFac ∣ n := hm ▸ (Nat.minFac_dvd m).mul_left _
  refine hp m.minFac hprime hdvd ?_
  rw [isPeriodicPt_iff_minimalPeriod_dvd, Nat.dvd_div_iff_mul_dvd hdvd, Nat.mul_comm]
  calc minimalPeriod f a * m.minFac
    _ ∣ minimalPeriod f a * m := Nat.mul_dvd_mul_left _ (Nat.minFac_dvd m)
    _ = n := hm.symm

theorem prime_dvd_65535 {p : Nat} (hp : p.Prime) (h : p ∣ 65535) : p = 3 ∨ p = 5 ∨ p = 17 ∨ p = 257 := by
  have hprod : p ∣ 3 * 5 * 17 * 257 := h
  rw [hp.dvd_mul, hp.dvd_mul, hp.dvd_mul, Nat.prime_dvd_prime_iff_eq hp (by norm_num),
    Nat.prime_dvd_prime_iff_eq hp (by norm_num), Nat.prime_dvd_prime_iff_eq hp (by norm_num),
    Nat.prime_dvd_prime_iff_eq hp (by norm_num), or_assoc, or_assoc] at hprod
  exact hprod

/-- From `0x0100`, whose only bit is `s[16]`, the register runs through 65535 words. -/
theorem minimalPeriod_lfsrStep_one : minimalPeriod lfsrStep 1#16 = 65535 := by
  have hstart : nonceTail 0x00000100#32 = 1#16 := by decide
  have hval (k : BitVec 32) : lfsrStep^[k.toNat] 1#16 = nonceTail (prngAdvance 0x00000100#32 k) :=
    hstart ▸ iterate_lfsrStep_nonceTail _ k
  refine minimalPeriod_eq_of_prime_quotients ((hval 65535#32).trans (by decide +kernel)) ?_
  intro p hp hdvd hper
  rcases prime_dvd_65535 hp hdvd with rfl | rfl | rfl | rfl
  · exact absurd ((hval 21845#32).symm.trans hper) (by decide +kernel)
  · exact absurd ((hval 13107#32).symm.trans hper) (by decide +kernel)
  · exact absurd ((hval 3855#32).symm.trans hper) (by decide +kernel)
  · exact absurd ((hval 255#32).symm.trans hper) (by decide +kernel)

theorem minimalPeriod_iterate_lfsrStep_one (n : Nat) :
    minimalPeriod lfsrStep (lfsrStep^[n] 1#16) = 65535 := by
  rw [minimalPeriod_apply_iterate, minimalPeriod_lfsrStep_one]
  exact minimalPeriod_pos_iff_mem_periodicPts.mp (by rw [minimalPeriod_lfsrStep_one]; decide)

/-- There are 65535 nonzero words, so the orbit of `1` is all of them. -/
theorem exists_iterate_lfsrStep_one {u : BitVec 16} (hu : u ≠ 0#16) :
    ∃ n, lfsrStep^[n] 1#16 = u := by
  have hmaps : Set.MapsTo (fun n => lfsrStep^[n] 1#16) (Finset.range 65535)
      ((Finset.univ : Finset (BitVec 16)).erase 0#16) := by
    intro n _
    simp only [Finset.coe_erase, Finset.coe_univ, Set.mem_sdiff, Set.mem_univ, true_and,
      Set.mem_singleton_iff]
    intro h0
    have hperiod := minimalPeriod_iterate_lfsrStep_one n
    rw [h0, minimalPeriod_eq_one_iff_isFixedPt.mpr lfsrStep_zero] at hperiod
    omega
  have hinj : Set.InjOn (fun n => lfsrStep^[n] 1#16) (Finset.range 65535) := by
    rw [Finset.coe_range, ← minimalPeriod_lfsrStep_one]
    exact iterate_injOn_Iio_minimalPeriod
  have hcard : ((Finset.univ : Finset (BitVec 16)).erase 0#16).card ≤ (Finset.range 65535).card := by
    rw [Finset.card_erase_of_mem (Finset.mem_univ _), Finset.card_range, Finset.card_univ,
      ← FinEnum.card_eq_fintypeCard, FinEnum.card_bitVec]
    decide
  obtain ⟨n, -, hn⟩ := Finset.surjOn_of_injOn_of_card_le _ hmaps hinj hcard
    (Finset.mem_coe.mpr (Finset.mem_erase.mpr ⟨hu, Finset.mem_univ u⟩))
  exact ⟨n, hn⟩

theorem minimalPeriod_lfsrStep {u : BitVec 16} (hu : u ≠ 0#16) : minimalPeriod lfsrStep u = 65535 := by
  obtain ⟨n, rfl⟩ := exists_iterate_lfsrStep_one hu
  exact minimalPeriod_iterate_lfsrStep_one n

theorem iterate_add_lfsrStep_eq_iff {u : BitVec 16} (hu : u ≠ 0#16) (n d : Nat) :
    lfsrStep^[n + d] u = lfsrStep^[n] u ↔ 65535 ∣ d := by
  have hmem : u ∈ periodicPts lfsrStep :=
    minimalPeriod_pos_iff_mem_periodicPts.mp (by rw [minimalPeriod_lfsrStep hu]; decide)
  rw [← minimalPeriod_lfsrStep hu, ← minimalPeriod_apply_iterate hmem n,
    ← isPeriodicPt_iff_minimalPeriod_dvd, IsPeriodicPt, IsFixedPt, ← iterate_add_apply, Nat.add_comm]

end Sys2Proof.Proofs
end

section
/-! The period of the nonce sequence (spec/44_prng_swap.md rule R126): `suc` from the sixteenth iteration on,
the values checked in the rule, and the statement. -/

namespace Sys2Proof.Proofs

open Sys2Proof.Machine Sys2Proof.Laws

/-! ### From the sixteenth iteration on -/

theorem suc_add_eq_iff {x : BitVec 32} (hx : x.extractLsb' 0 16 ≠ 0#16) {k : Nat} (hk : 16 ≤ k) (d : Nat) :
    suc x (k + d) = suc x k ↔ 65535 ∣ d := by
  rw [suc_eq_suc_iff x (by omega) hk, Nat.sub_add_comm hk,
    iterate_add_lfsrStep_eq_iff (mt (nonceTail_eq_zero_iff x).mp hx)]

theorem suc_eq_zero {x : BitVec 32} (hx : x.extractLsb' 0 16 = 0#16) {k : Nat} (hk : 16 ≤ k) :
    suc x k = 0#32 := by
  have hz : nonceTail x = nonceTail 0#32 := by
    rw [(nonceTail_eq_zero_iff x).mpr hx]
    decide
  rw [← Nat.add_sub_cancel' hk, suc_add, (suc_sixteen_eq_iff x 0#32).mpr hz, suc_of_zero, suc_of_zero]

/-- The reduction of a count of rule R126. -/
theorem suc_reduced_count (x : BitVec 32) {k : Nat} (hk : 16 ≤ k) :
    suc x (16 + (k - 16) % 65535) = suc x k := by
  by_cases hx : x.extractLsb' 0 16 = 0#16
  · rw [suc_eq_zero hx hk, suc_eq_zero hx (by omega)]
  · have hsplit : 16 + (k - 16) % 65535 + 65535 * ((k - 16) / 65535) = k := by omega
    have h := (suc_add_eq_iff hx (k := 16 + (k - 16) % 65535) (by omega) _).mpr
      (Nat.dvd_mul_right 65535 ((k - 16) / 65535))
    rw [← h, hsplit]

/-! ### The values checked in the rule -/

theorem suc_01020304_32 : suc 0x01020304#32 32 = 0xA3BD92D0#32 := by decide +kernel

/-- One period after the value before. -/
theorem suc_01020304_65567 : suc 0x01020304#32 65567 = 0xA3BD92D0#32 :=
  ((suc_add_eq_iff (k := 32) (by decide) (by decide) 65535).mpr (dvd_refl _)).trans suc_01020304_32

theorem suc_01020304_65535 : suc 0x01020304#32 65535 = 0xD38B0304#32 :=
  (prngAdvance_eq_suc 0x01020304#32 65535#32).symm.trans (by decide +kernel)

/-! ### The statement -/

/-- Settles O49: `s[16..31]` is the register, whose nonzero words all have least period 65535. -/
theorem prngPeriod : Obligations.PrngPeriod := by
  refine ⟨fun x k d hk hx => suc_add_eq_iff hx hk d, fun x k hk hx => suc_eq_zero hx hk,
    fun k s hk => ?_, fun s => ⟨⟨_, exec_prstep suc_01020304_65567, rfl⟩,
      ⟨_, exec_prstep suc_01020304_32, rfl⟩, ⟨_, exec_prstep suc_01020304_65535, rfl⟩⟩⟩
  rw [exec_prstep rfl, exec_prstep rfl, BitVec.toNat_ofNat, Nat.mod_eq_of_lt (by omega),
    suc_reduced_count _ hk]

end Sys2Proof.Proofs
end

section
/-! The byte step of CRC_A (spec/45_crc_a.md rule R131): its form on numbers, and that it is eight iterations
of the bit-serial form (rule R137). -/

namespace Sys2Proof.Proofs

open Sys2Proof.Machine Sys2Proof.Laws Sys2Proof.Statements

/-! ### The byte step on numbers -/

/-- The mixed byte at its three places in the new value (rule R131). -/
def crcSpread (t : BitVec 8) : BitVec 16 :=
  t.setWidth 16 <<< 8 ^^^ t.setWidth 16 <<< 3 ^^^ t.setWidth 16 >>> 4

theorem setWidth_append_zeros (t : BitVec 8) (n : Nat) :
    (t ++ 0#n).setWidth 16 = t.setWidth 16 <<< n := by
  rw [BitVec.setWidth_append_eq_shiftLeft_setWidth_or, BitVec.setWidth_zero, BitVec.or_zero]

theorem setWidth_extractLsb'_high {n m : Nat} (h : n + m ≤ 16) (x : BitVec (n + m)) :
    (x.extractLsb' n m).setWidth 16 = x.setWidth 16 >>> n := by
  refine BitVec.eq_of_getLsbD_eq fun i hi => ?_
  rw [BitVec.getLsbD_setWidth, BitVec.getLsbD_extractLsb', BitVec.getLsbD_ushiftRight,
    BitVec.getLsbD_setWidth]
  by_cases him : i < m
  · simp [him, hi, show n + i < 16 by omega]
  · simp [him, BitVec.getLsbD_of_ge x (n + i) (by omega)]

/-- Rule R131 as shifts: the high byte moved down, and the mixed byte spread over the register. -/
theorem crcStep_eq (c : BitVec 16) (b : BitVec 8) :
    crcStep c b = c >>> 8 ^^^ crcSpread (crcMix c b) := by
  have hhigh : (c.extractLsb' 8 8).setWidth 16 = c >>> 8 := by
    rw [setWidth_extractLsb'_high (n := 8) (m := 8) (by decide), BitVec.setWidth_eq]
  rw [← hhigh, crcSpread, ← setWidth_append_zeros, ← setWidth_append_zeros,
    ← setWidth_extractLsb'_high (n := 4) (m := 4) (by decide), BitVec.setWidth_eq,
    ← BitVec.xor_assoc, ← BitVec.xor_assoc]
  rfl

theorem toNat_crcMix (c : BitVec 16) (b : BitVec 8) : (crcMix c b).toNat =
    (b.toNat ^^^ c.toNat % 256) ^^^ (b.toNat ^^^ c.toNat % 256) * 16 % 256 := by
  simp [crcMix, Nat.shiftLeft_eq]

theorem toNat_crcSpread (t : BitVec 8) :
    (crcSpread t).toNat = t.toNat * 256 ^^^ t.toNat * 8 ^^^ t.toNat / 16 := by
  have ht := t.isLt
  simp (disch := omega) [crcSpread, Nat.shiftLeft_eq, Nat.shiftRight_eq_div_pow, Nat.mod_eq_of_lt]

theorem toNat_crcStep (c : BitVec 16) (b : BitVec 8) :
    (crcStep c b).toNat = crcByteNumbers c.toNat b.toNat := by
  rw [crcStep_eq, BitVec.toNat_xor, toNat_crcSpread, toNat_crcMix, BitVec.toNat_ushiftRight,
    Nat.shiftRight_eq_div_pow]
  simp only [crcByteNumbers, Nat.xor_assoc]

/-! ### The bit-serial form (rule R137) -/

/-- What an iteration adds to the register moved down: the polynomial, if the bit that falls out is 1. -/
def crcFeedback (x : Bool) : BitVec 16 := if x then 0x8408#16 else 0#16

theorem crcFeedback_xor (x y : Bool) : crcFeedback (x ^^ y) = crcFeedback x ^^^ crcFeedback y := by
  revert x y
  decide

theorem crcBitSerial_succ (b : BitVec 8) (i n : Nat) (c : BitVec 16) :
    crcBitSerial b i (n + 1) c =
      crcBitSerial b (i + 1) n (c >>> 1 ^^^ crcFeedback (c.getLsbD 0 ^^ b.getLsbD i)) := by
  rw [crcBitSerial, crcFeedback]
  split
  · rfl
  · rw [BitVec.xor_zero]

/-- The iterations are linear in the register and the byte together. -/
theorem crcBitSerial_xor (b b' : BitVec 8) (i n : Nat) (c c' : BitVec 16) :
    crcBitSerial (b ^^^ b') i n (c ^^^ c') = crcBitSerial b i n c ^^^ crcBitSerial b' i n c' := by
  induction n generalizing i c c' with
  | zero => rfl
  | succ n ih =>
    have hbit : ((c ^^^ c').getLsbD 0 ^^ (b ^^^ b').getLsbD i) =
        ((c.getLsbD 0 ^^ b.getLsbD i) ^^ (c'.getLsbD 0 ^^ b'.getLsbD i)) := by
      simp only [BitVec.getLsbD_xor, Bool.xor_assoc, Bool.xor_left_comm]
    have hnext : (c ^^^ c') >>> 1 ^^^ crcFeedback ((c ^^^ c').getLsbD 0 ^^ (b ^^^ b').getLsbD i) =
        (c >>> 1 ^^^ crcFeedback (c.getLsbD 0 ^^ b.getLsbD i)) ^^^
          (c' >>> 1 ^^^ crcFeedback (c'.getLsbD 0 ^^ b'.getLsbD i)) := by
      rw [hbit, crcFeedback_xor, BitVec.ushiftRight_xor_distrib]
      ac_rfl
    rw [crcBitSerial_succ, hnext, ih, ← crcBitSerial_succ, ← crcBitSerial_succ]

/-- Bits equal to those that fall out bring no feedback. -/
theorem crcBitSerial_of_low_bits {b : BitVec 8} {i n : Nat} {c : BitVec 16}
    (h : ∀ j < n, c.getLsbD j = b.getLsbD (i + j)) : crcBitSerial b i n c = c >>> n := by
  induction n generalizing i c with
  | zero => rw [crcBitSerial, BitVec.ushiftRight_zero]
  | succ n ih =>
    have hnext : c >>> 1 ^^^ crcFeedback (c.getLsbD 0 ^^ b.getLsbD i) = c >>> 1 := by
      rw [h 0 n.succ_pos, Nat.add_zero, Bool.xor_self]
      exact BitVec.xor_zero
    have hlow : ∀ j < n, (c >>> 1).getLsbD j = b.getLsbD (i + 1 + j) := fun j hj => by
      rw [BitVec.getLsbD_ushiftRight, h _ (by omega), Nat.add_assoc]
    rw [crcBitSerial_succ, hnext, ih hlow, ← BitVec.shiftRight_add, Nat.add_comm]

/-- On the empty register the iterations mix the byte and spread it. -/
theorem crcBitSerial_zero (t : BitVec 8) : crcBitSerial t 0 8 0#16 = crcSpread (t ^^^ t <<< 4) := by
  revert t
  decide +kernel

/-- Rule R137, by linearity: the byte is the low byte of the register, which only moves the high byte down,
and the difference, fed to the empty register. -/
theorem crcBitSerial_eq_crcStep (c : BitVec 16) (b : BitVec 8) : crcBitSerial b 0 8 c = crcStep c b := by
  have hlow : ∀ j < 8, c.getLsbD j = (c.extractLsb' 0 8).getLsbD (0 + j) := fun j hj => by simp [hj]
  calc crcBitSerial b 0 8 c
    _ = crcBitSerial (c.extractLsb' 0 8 ^^^ (b ^^^ c.extractLsb' 0 8)) 0 8 (c ^^^ 0#16) := by
      rw [BitVec.xor_comm b, ← BitVec.xor_assoc, BitVec.xor_self, BitVec.zero_xor, BitVec.xor_zero]
    _ = c >>> 8 ^^^ crcSpread (crcMix c b) := by
      rw [crcBitSerial_xor, crcBitSerial_of_low_bits hlow, crcBitSerial_zero, crcMix]
    _ = crcStep c b := (crcStep_eq c b).symm

end Sys2Proof.Proofs
end

section
/-! `CRCINIT`, `CRCBYTE`, `CRCRD` and `CRCCHK` (spec/45_crc_a.md): the next state of each command, the CRC of
a message fed byte by byte (rule R146), and the statements. -/

namespace Sys2Proof.Proofs

open Sys2Proof.Machine Sys2Proof.Laws Sys2Proof.Statements

/-! ### The bytes of the example frame `60 00 F5 7B` -/

theorem crcStep_6363_60 : crcStep 0x6363#16 0x60#8 = 0x32F8#16 := by decide
theorem crcStep_32F8_00 : crcStep 0x32F8#16 0x00#8 = 0x7BF5#16 := by decide

/-! ### One equation per command -/

theorem exec_crcinit (s : State) :
    exec .crcinit s = .next { s with crc := 0x6363#16, rsp := legalAnswer s 0#48 } := exec_eq _ s

theorem exec_crcbyte {b : BitVec 8} {c : BitVec 16} {s : State} (h : crcStep s.crc b = c) :
    exec (.crcbyte b) s = .next { s with crc := c, rsp := legalAnswer s 0#48 } := by
  rw [exec_eq, dataAfter, h]
  rfl

theorem exec_crcrd (s : State) :
    exec .crcrd s = .next { s with rsp := legalAnswer s (resultField s.crc) } := exec_eq _ s

theorem exec_crcchk {r : BitVec 16} {q : BitVec 48} {s : State} (h : bitResult (r == s.crc) = q) :
    exec (.crcchk r) s = .next { s with rsp := legalAnswer s q } := by
  rw [exec_eq, resultOf, resultField_ofBool, h]
  rfl

/-- A pair of bytes is a word exactly when they are its low and its high byte. -/
theorem append_eq_iff_bytes (hi lo : BitVec 8) (c : BitVec 16) :
    hi ++ lo = c ↔ c.extractLsb' 0 8 = lo ∧ c.extractLsb' 8 8 = hi := by
  constructor
  · rintro rfl
    exact ⟨BitVec.extractLsb'_append_eq_right, BitVec.extractLsb'_append_eq_left⟩
  · rintro ⟨rfl, rfl⟩
    exact (BitVec.extractLsb'_append_extractLsb'_eq_extractLsb' rfl).trans BitVec.extractLsb'_eq_self

/-! ### Messages -/

/-- The commands that feed a message change `CRC` alone. -/
theorem issueAll_crcbyte (bytes : List (BitVec 8)) (s : State) : ∃ r,
    issueAll (bytes.map .crcbyte) s = some (bytes.map fun _ => 0#48,
      { s with crc := bytes.foldl crcStep s.crc, rsp := r }) := by
  induction bytes generalizing s with
  | nil => exact ⟨s.rsp, rfl⟩
  | cons b bytes ih =>
    obtain ⟨r, h⟩ := ih ((dataAfter (.crcbyte b) s).answer 0#48)
    refine ⟨r, ?_⟩
    rw [List.map_cons, issueAll_cons, issue_of_decode (decode_encode _)]
    simp only [resultOf, Option.bind_some, h, Option.map_some]
    rfl

/-- `CRCA` (rule R146) returns `crc_a` of its message, and changes `CRC` alone. -/
theorem crca_eq (bytes : List (BitVec 8)) (s : State) : crca bytes s =
    some (crcA bytes, { s with
      crc := crcA bytes, rsp := legalAnswer s (resultField (crcA bytes)) }) := by
  obtain ⟨r, h⟩ := issueAll_crcbyte bytes ((dataAfter .crcinit s).answer 0#48)
  simp only [crca, issue_of_decode (decode_encode _), Option.bind_eq_bind, Option.bind_some, resultOf, h]
  have hword : (resultField (crcA bytes)).setWidth 16 = crcA bytes := setWidth_resultField (by decide) _
  exact congrArg some (Prod.ext hword rfl)

/-- A message and then its own two CRC bytes (rule R136): each empties the low byte. -/
theorem crcA_append_crcWire (bytes : List (BitVec 8)) : crcA (bytes ++ crcWire (crcA bytes)) = 0#16 := by
  generalize hc : crcA bytes = c
  have hhi : c.extractLsb' 8 8 = (c >>> 8).extractLsb' 0 8 :=
    BitVec.eq_of_getLsbD_eq fun i _ => by simp
  rw [crcA_append, hc, crcWire, List.foldl_cons, List.foldl_cons, List.foldl_nil, crcStep_low_byte, hhi,
    crcStep_low_byte, ← BitVec.shiftRight_add, BitVec.ushiftRight_eq_zero (by decide)]

/-! ### The statements -/

/-- Settles O52: the new CRC is `crcStep`, whose number and bit-serial form are above. -/
theorem crcbyteEffect : Obligations.CrcbyteEffect :=
  ⟨encodedAs_instrOf .CRCBYTE,
    fun b s => ⟨crcStep s.crc b, exec_crcbyte rfl, toNat_crcStep _ _, (crcBitSerial_eq_crcStep _ _).symm⟩,
    fun _ => exec_crcbyte (crcStep_low_byte _),
    fun _ => ⟨exec_crcbyte crcStep_6363_60, exec_crcbyte crcStep_32F8_00⟩⟩

/-- Settles O54: `CRCA` of the message with its CRC bytes is `crc_a` of it, and that is 0. -/
theorem crcResidue : Obligations.CrcResidue :=
  ⟨crcA_append_crcWire,
    fun bytes s => ⟨_, _, _, crca_eq bytes s, by rw [crca_eq, crcA_append_crcWire]⟩,
    by decide, by decide⟩

/-- Settles O55: `CRCA` is `crc_a`, and the frames are `CRCA` of their two bytes. -/
theorem crcVectorsAndFrames : Obligations.CrcVectorsAndFrames :=
  ⟨fun bytes s => ⟨_, crca_eq bytes s, rfl, rfl, rfl, rfl, rfl⟩, rfl,
    fun bytes b => crcA_append bytes [b],
    by decide, by decide, by decide,
    fun k b s => ⟨_, _, crca_eq _ s, by rw [authframe, crca_eq]; rfl⟩,
    fun b s => ⟨_, _, crca_eq _ s, by rw [readframe, crca_eq]; rfl⟩,
    by rw [authframe, crca_eq]; decide, by rw [authframe, crca_eq]; decide,
    by rw [readframe, crca_eq]; decide, by rw [readframe, crca_eq]; decide⟩

/-- Settles O51: the equations of the two commands, and `CRC` run through the two sequences. -/
theorem crcinitCrcrdEffect : Obligations.CrcinitCrcrdEffect := by
  refine ⟨encodedAs_instrOf .CRCINIT, encodedAs_instrOf .CRCRD, exec_crcinit,
    fun s => ⟨_, exec_crcrd s, ?_⟩, rfl, fun s => ?_, fun s => ?_⟩
  · exact BitVec.toNat_setWidth_of_le (by decide)
  · simp only [issueAll_cons, issue_of_decode (decode_encode _)]
    rfl
  · simp only [issueAll_cons, issue_of_decode (decode_encode _), issueAll_nil, Option.bind_some,
      Option.map_some, resultOf, dataAfter, answer_crc, crcInit, crcStep_6363_60, crcStep_32F8_00]
    rfl

/-- Settles O53: the operand equals `CRC` exactly when both of its bytes do. -/
theorem crcchkEffect : Obligations.CrcchkEffect := by
  refine ⟨encodedAs_instrOf .CRCCHK, fun lo hi s => exec_crcchk ?_,
    fun _ => ⟨exec_crcchk rfl, exec_crcchk rfl⟩⟩
  simp only [bitResult, beq_iff_eq, append_eq_iff_bytes]

end Sys2Proof.Proofs
end

section
/-! The sequences of the cipher (spec/46_sequences.md rules R147, R152 and R153): what `INITCIPHER`,
`KEYFROMSTATE` and `CLONE` leave and return, given the runs of their stepping commands, and the statements. -/

namespace Sys2Proof.Proofs

open Sys2Proof.Machine Sys2Proof.Laws Sys2Proof.Statements

theorem issue_eq (i : Instr) (s : State) :
    issue i s = some (resultOf i s, (dataAfter i s).answer (resultOf i s)) :=
  issue_of_decode (decode_encode i) s

/-- What issuing a stepping command returns and leaves, given its run. -/
theorem RunsOver.issue_of_run {one : Cipher → Bool → Bool → Bool × Cipher} {e : Bool} {n : Nat}
    {l : List Nat} {mk : BitVec n → Instr} (h : RunsOver one e l mk) {x q : BitVec n} {c : Cipher}
    {s : State} (hrun : runSteps one e x l 0#n s.cipher = (q, c)) :
    issue (mk x) s = some (resultField q, (s.setCipher c).answer (resultField q)) := by
  rw [h.issue_eq, hrun]

theorem issue_prstep (s : State) (n : Nat) (hn : n < 2 ^ 32) : issue (.prstep (BitVec.ofNat 32 n)) s =
    some (resultField (suc s.pr n),
      ({ s with pr := suc s.pr n } : State).answer (resultField (suc s.pr n))) := by
  rw [issue_eq, resultOf, dataAfter, prngAdvance_eq_suc, BitVec.toNat_ofNat, Nat.mod_eq_of_lt hn]

theorem initcipher_of_run {key : Key} {uid nT q : Word} {c : Cipher}
    (hrun : runSteps step1 false (uid ^^^ nT) wordOrder 0#32 (packKey key) = (q, c)) (s : State) :
    initcipher key uid nT s = some ((s.setCipher c).answer (resultField q)) := by
  have hword := (runsOver_stword false).issue_of_run (s := (s.setCipher (packKey key)).answer 0#48) hrun
  have hkey : issue (.ldkey key) s = some (0#48, (s.setCipher (packKey key)).answer 0#48) := issue_eq _ s
  simp only [initcipher, hkey, hword, Option.bind_eq_bind, Option.bind_some]
  rfl

theorem keyfromstate_of_run {odd even : Half} {inp q : Word} {c : Cipher}
    (hrun : runSteps unstep1 false inp wordOrder.reverse 0#32 ⟨odd, even⟩ = (q, c)) (s : State) :
    keyfromstate odd even inp s = some (unpackKey c, (s.setCipher c).answer (unpackKey c)) := by
  have hword := (runsOver_rbword false).issue_of_run (s := (s.setCipher ⟨odd, even⟩).answer 0#48) hrun
  have hload : issue (.ldst odd even) s = some (0#48, (s.setCipher ⟨odd, even⟩).answer 0#48) :=
    issue_eq _ s
  simp only [keyfromstate, hload, hword, issue_eq .rdkey, Option.bind_eq_bind, Option.bind_some]
  rfl

theorem cloneSave_eq (s : State) : cloneSave s = some (s.odd ++ s.even, s.answer (s.odd ++ s.even)) :=
  issue_eq .rdst s

theorem cloneRestore_append (odd even : Half) (s : State) :
    cloneRestore (odd ++ even) s = some ((s.setCipher ⟨odd, even⟩).answer 0#48) := by
  have hodd : (odd ++ even).extractLsb' 24 24 = odd := BitVec.extractLsb'_append_eq_left
  have heven : (odd ++ even).extractLsb' 0 24 = even := BitVec.extractLsb'_append_eq_right
  rw [cloneRestore, hodd, heven, issue_eq]
  rfl

/-- The word run of the example of rule R147, which is that of rule R152 undone. -/
theorem runWord_ones : runSteps step1 false 0x1EFD8D5E#32 wordOrder 0#32 ⟨0xFFFFFF#24, 0xFFFFFF#24⟩ =
    (0xFF77FF5A#32, ⟨0xFFFD66#24, 0xFF7FAE#24⟩) := by
  simpa only [rollbackWord_example, List.reverse_reverse] using runSteps_undo step1_unstep1
    (List.nodup_reverse.mpr wordOrder_nodup)
    (fun k hk => List.mem_reverse.mpr ((mem_wordOrder k).mpr hk)) false 0x1EFD8D5E#32 0#32 0#32
    ⟨0xFFFD66#24, 0xFF7FAE#24⟩

/-- `INITCIPHER` of the example of rule R147, on any core. -/
theorem initcipher_example (s : State) :
    initcipher 0xFFFFFFFFFFFF#48 0x9C599B32#32 0x82A4166C#32 s =
      some ((s.setCipher ⟨0xFFFD66#24, 0xFF7FAE#24⟩).answer (resultField 0xFF77FF5A#32)) :=
  initcipher_of_run (packKey_ones ▸ runWord_ones) s

/-- Settles O56: the rollback of `KEYFROMSTATE` undoes the word of `INITCIPHER`, which leaves the packed
key. -/
theorem keyFromStateInvertsInitCipher : Obligations.KeyFromStateInvertsInitCipher := by
  refine ⟨fun key uid nT s s' => ?_, fun s => ⟨_, initcipher_example s, rfl, rfl⟩, ?_⟩
  · have hback := runSteps_undo unstep1_step1 wordOrder_nodup (fun k => (mem_wordOrder k).mpr) false
      (uid ^^^ nT) 0#32 0#32 (packKey key)
    rcases hforth : runSteps step1 false (uid ^^^ nT) wordOrder 0#32 (packKey key) with ⟨q, c⟩
    rw [hforth] at hback
    exact ⟨_, _, initcipher_of_run hforth s,
      unpackKey_packKey key ▸ keyfromstate_of_run hback s'⟩
  · rw [keyfromstate_of_run rollbackWord_example, unpackKey_ones]
    rfl

/-- Settles O59: `RDST` answers the two halves, and `LDST` of its answer writes just them. -/
theorem cloneCopiesCipherState : Obligations.CloneCopiesCipherState := fun s1 s2 =>
  ⟨_, _, _, cloneSave_eq s1, cloneRestore_append s1.odd s1.even s2,
    rfl, rfl, rfl, rfl, rfl, rfl, rfl, rfl, rfl, rfl⟩

end Sys2Proof.Proofs
end

section
/-! The keystream drawn while zero is fed (spec/46_sequences.md rules R148 and R149): `KSBYTE`, `KSWORD`, and
`ENCBYTES`, whose keystream and final state are fixed before its bytes are. -/

namespace Sys2Proof.Proofs

open Sys2Proof.Machine Sys2Proof.Laws Sys2Proof.Statements

/-- A run whose operand is zero is so many single steps on a zero bit. -/
theorem runSteps_zero_state {w : Nat} (one : Cipher → Bool → Bool → Bool × Cipher) (e : Bool)
    (l : List Nat) (q : BitVec w) (c : Cipher) :
    (runSteps one e 0#w l q c).2 = (fun c => (one c false e).2)^[l.length] c := by
  induction l generalizing q c with
  | nil => rfl
  | cons k ks ih => rw [runSteps_cons, ih, BitVec.getLsbD_zero]; rfl

theorem ksbyte_of_run {q : Byte} {c : Cipher} {s : State}
    (hrun : runSteps step1 false 0#8 byteOrder 0#8 s.cipher = (q, c)) :
    ksbyte s = some (q, (s.setCipher c).answer (resultField q)) := by
  simp only [ksbyte, (runsOver_stbyte false).issue_of_run hrun, Option.bind_eq_bind, Option.bind_some,
    setWidth_resultField, Nat.reduceLeDiff, Option.pure_def]

theorem ksword_of_run {q : Word} {c : Cipher} {s : State}
    (hrun : runSteps step1 false 0#32 wordOrder 0#32 s.cipher = (q, c)) :
    ksword s = some (q, (s.setCipher c).answer (resultField q)) := by
  simp only [ksword, (runsOver_stword false).issue_of_run hrun, Option.bind_eq_bind, Option.bind_some,
    setWidth_resultField, Nat.reduceLeDiff, Option.pure_def]

/-- `n` keystream bytes `ks` and the state `t` after them, drawn from `s` by `STBYTE 0`, serve every message
of `n` bytes. -/
structure DrawsKeystream (n : Nat) (s : State) (ks : List Byte) (t : State) : Prop where
  length : ks.length = n
  drawn : issueAll (List.replicate n (.stbyte false 0#8)) s = some (ks.map fun k => k.setWidth 48, t)
  encrypted : ∀ bytes : List Byte, bytes.length = n →
    encbytes bytes s = some (bytes.zipWith (fun b k => b ^^^ k) ks, t)
  cipher : t.cipher = (fun c => (step1 c false false).2)^[8 * n] s.cipher

theorem drawsKeystream_zero (s : State) : DrawsKeystream 0 s [] s where
  length := rfl
  drawn := rfl
  encrypted bytes h := by rw [List.length_eq_zero_iff.mp h]; rfl
  cipher := rfl

/-- One byte drawn before `n` others. -/
theorem DrawsKeystream.cons {n : Nat} {s t : State} {k : Byte} {c : Cipher} {ks : List Byte}
    (hrun : runSteps step1 false 0#8 byteOrder 0#8 s.cipher = (k, c))
    (h : DrawsKeystream n ((s.setCipher c).answer (resultField k)) ks t) :
    DrawsKeystream (n + 1) s (k :: ks) t where
  length := congrArg Nat.succ h.length
  drawn := by
    rw [List.replicate_succ, issueAll_cons, (runsOver_stbyte false).issue_of_run hrun, Option.bind_some,
      h.drawn]
    rfl
  encrypted bytes hlen := by
    obtain ⟨b, bytes, rfl⟩ := List.exists_cons_of_length_eq_add_one hlen
    simp only [encbytes, ksbyte_of_run hrun, h.encrypted bytes (Nat.succ.inj hlen),
      Option.bind_eq_bind, Option.bind_some]
    rfl
  cipher := by
    have hc := runSteps_zero_state step1 false byteOrder 0#8 s.cipher
    rw [hrun] at hc
    rw [h.cipher, Nat.mul_succ, Function.iterate_add_apply, answer_cipher, setCipher_cipher]
    exact congrArg _ hc

theorem exists_drawsKeystream (n : Nat) (s : State) : ∃ ks t, DrawsKeystream n s ks t := by
  induction n generalizing s with
  | zero => exact ⟨[], s, drawsKeystream_zero s⟩
  | succ n ih =>
    rcases hrun : runSteps step1 false 0#8 byteOrder 0#8 s.cipher with ⟨k, c⟩
    obtain ⟨ks, t, h⟩ := ih ((s.setCipher c).answer (resultField k))
    exact ⟨k :: ks, t, h.cons hrun⟩

theorem zipWith_xor_zipWith_xor {w : Nat} {bytes ks : List (BitVec w)} (h : bytes.length = ks.length) :
    (bytes.zipWith (fun b k => b ^^^ k) ks).zipWith (fun b k => b ^^^ k) ks = bytes := by
  refine List.ext_getElem (by simp [h]) fun i _ _ => ?_
  rw [List.getElem_zipWith, List.getElem_zipWith, BitVec.xor_assoc, BitVec.xor_self, BitVec.xor_zero]

/-- Settles O57: messages of one length meet one keystream, which cancels itself. -/
theorem encbytesSymmetric : Obligations.EncbytesSymmetric := by
  refine ⟨fun s => ⟨_, _, (runsOver_stbyte false).exec_eq _ s, rfl, ksbyte_of_run rfl⟩,
    fun s => ⟨_, _, (runsOver_stword false).exec_eq _ s, rfl, ksword_of_run rfl⟩,
    fun bytes s => ?_, fun bytes s => ?_, fun bytes bytes' s hlen => ?_, by decide +kernel⟩
  · obtain ⟨ks, t, h⟩ := exists_drawsKeystream bytes.length s
    exact ⟨ks, t, h.length, h.drawn, h.encrypted bytes rfl, h.cipher⟩
  · obtain ⟨ks, t, h⟩ := exists_drawsKeystream bytes.length s
    have hlen : (bytes.zipWith (fun b k => b ^^^ k) ks).length = bytes.length := by
      rw [List.length_zipWith, h.length, Nat.min_self]
    refine ⟨_, t, h.encrypted bytes rfl, hlen, ?_⟩
    rw [h.encrypted _ hlen, zipWith_xor_zipWith_xor h.length.symm]
  · obtain ⟨ks, t, h⟩ := exists_drawsKeystream bytes.length s
    rw [h.encrypted bytes rfl, h.encrypted bytes' hlen.symm]
    rfl

end Sys2Proof.Proofs
end

section
/-! The authentication (spec/46_sequences.md rules R150 and R151): the card, which feeds the encrypted reader
nonce with `E = 1`, makes the run the reader makes on the plain one. -/

namespace Sys2Proof.Proofs

open Sys2Proof.Machine Sys2Proof.Laws Sys2Proof.Statements

/-- A plain run is the encrypted run on its input encrypted by its result: `runSteps_encrypted` read from the
plain side. Every plain input is some decrypted one, because decryption is injective: the plain run on the
decrypted input is the encrypted run, whose result gives the encrypted input back. -/
theorem runSteps_encrypt {w : Nat} {l : List Nat} (hl : l.Nodup) (hw : ∀ k ∈ l, k < w)
    (arg q : BitVec w) (c : Cipher) :
    runSteps step1 true (arg ^^^ (runSteps step1 false arg l q c).1) l q c =
      runSteps step1 false arg l q c := by
  have hplain (x : BitVec w) : runSteps step1 false (x ^^^ (runSteps step1 true x l q c).1) l q c =
      runSteps step1 true x l q c :=
    runSteps_encrypted hl hw x _ q c fun _ _ => BitVec.getLsbD_xor ..
  have hinj : Function.Injective fun x => x ^^^ (runSteps step1 true x l q c).1 := fun x y hxy => by
    have hrun := hplain x
    dsimp only at hxy
    rw [hxy, hplain y] at hrun
    rwa [hrun, BitVec.xor_left_inj] at hxy
  obtain ⟨x, rfl⟩ := Finite.surjective_of_injective hinj arg
  simp only [hplain, BitVec.xor_assoc, BitVec.xor_self, BitVec.xor_zero]

theorem readerresp_of_runs {nR nT ks1 ks2 : Word} {c1 c2 : Cipher} {s : State}
    (hnonce : runSteps step1 false nR wordOrder 0#32 s.cipher = (ks1, c1))
    (hanswer : runSteps step1 false 0#32 wordOrder 0#32 c1 = (ks2, c2)) :
    ∃ t, readerresp nR nT s = some ((nR ^^^ ks1, suc nT 64 ^^^ ks2), t) ∧
      t.cipher = c2 ∧ t.pr = suc nT 64 := by
  have hissue := (runsOver_stword false).issue_of_run hnonce
  have hdraw (t : State) (ht : t.cipher = c1) : ksword t = some (ks2, _) :=
    ksword_of_run (ht ▸ hanswer)
  simp only [readerresp, hissue, prngsucc_eq, Option.bind_eq_bind, Option.bind_some,
    setWidth_resultField, Nat.reduceLeDiff]
  rw [hdraw]
  · exact ⟨_, rfl, rfl, rfl⟩
  · rfl

section
variable {ks3 : Word} {c3 : Cipher} {s : State}
  (hrun : runSteps step1 false 0#32 wordOrder 0#32 s.cipher = (ks3, c3))
include hrun

theorem verifycard_of_run (encAT nT : Word) :
    ∃ t, verifycard encAT nT s = some (encAT ^^^ ks3 == suc nT 96, t) := by
  simp only [verifycard, ksword_of_run hrun, prngsucc_eq, Option.bind_eq_bind, Option.bind_some]
  exact ⟨_, rfl⟩

/-- With `suc(nT, 64)` still in `PR`, 32 iterations more make the `suc(nT, 96)` of `VERIFYCARD`. -/
theorem verifycardContinued_of_run {nT : Word} (hpr : s.pr = suc nT 64) (encAT : Word) :
    ∃ t, verifycardContinued encAT s = some (encAT ^^^ ks3 == suc nT 96, t) := by
  have hsuc : suc s.pr 32 = suc nT 96 := by rw [hpr, ← suc_add]
  simp only [verifycardContinued, ksword_of_run hrun, issue_prstep _ 32 (by decide), answer_pr, setCipher_pr,
    hsuc, Option.bind_eq_bind, Option.bind_some, setWidth_resultField, Nat.reduceLeDiff]
  exact ⟨_, rfl⟩

end

/-! ### The example trace, after `INITCIPHER` -/

theorem runWord_trace_nonce : runSteps step1 false 0xEFEA1CDA#32 wordOrder 0#32
    ⟨0xFFFD66#24, 0xFF7FAE#24⟩ = (0x4E0E4414#32, ⟨0x665FB0#24, 0xAE131B#24⟩) := by
  decide +kernel
theorem runWord_trace_answer : runSteps step1 false 0#32 wordOrder 0#32
    ⟨0x665FB0#24, 0xAE131B#24⟩ = (0xE38F32AB#32, ⟨0xB0463F#24, 0x1B9FF5#24⟩) := by
  decide +kernel
theorem runWord_trace_card : runSteps step1 false 0#32 wordOrder 0#32
    ⟨0xB0463F#24, 0x1B9FF5#24⟩ = (0xC6EF8F19#32, ⟨0x3FC4DD#24, 0xF58C14#24⟩) := by
  decide +kernel

theorem suc_trace_answer : suc 0x82A4166C#32 64 = 0x8D65734B#32 := by decide +kernel
theorem suc_trace_card : suc 0x82A4166C#32 96 = 0x9A427B20#32 := by decide +kernel

/-! ### The statement -/

/-- Settles O58: the card's run on the encrypted nonce is the reader's on the plain one, so the two draw the
same keystream from then on. -/
theorem authenticationSession : Obligations.AuthenticationSession := by
  refine ⟨fun key uid nT nR reader card => ?_, ?_⟩
  · rcases hinit : runSteps step1 false (uid ^^^ nT) wordOrder 0#32 (packKey key) with ⟨ks0, c0⟩
    rcases hnonce : runSteps step1 false nR wordOrder 0#32 c0 with ⟨ks1, c1⟩
    rcases hanswer : runSteps step1 false 0#32 wordOrder 0#32 c1 with ⟨ks2, c2⟩
    rcases hcard : runSteps step1 false 0#32 wordOrder 0#32 c2 with ⟨ks3, c3⟩
    have hencrypted : runSteps step1 true (nR ^^^ ks1) wordOrder 0#32 c0 = (ks1, c1) := by
      have h := runSteps_encrypt wordOrder_nodup (fun k hk => (mem_wordOrder k).mp hk) nR 0#32 c0
      rwa [hnonce] at h
    obtain ⟨r2, hresp, hcipher, hpr⟩ := readerresp_of_runs (nT := nT)
      (s := (reader.setCipher c0).answer (resultField ks0)) hnonce hanswer
    have hverify : runSteps step1 false 0#32 wordOrder 0#32 r2.cipher = (ks3, c3) := hcipher ▸ hcard
    have haccept : (suc nT 96 ^^^ ks3 ^^^ ks3 == suc nT 96) = true := by simp
    refine ⟨_, r2, _, _, _, _, _, _, _, _, _, initcipher_of_run hinit reader, hresp,
      initcipher_of_run hinit card, (runsOver_stword true).issue_of_run hencrypted, ?_,
      ksword_of_run hanswer, ?_, congrArg Cipher.odd hcipher.symm, congrArg Cipher.even hcipher.symm,
      ksword_of_run hcard, ?_, ?_⟩
    · rw [setWidth_resultField (by decide), BitVec.xor_assoc, BitVec.xor_self, BitVec.xor_zero]
    · rw [BitVec.xor_assoc, BitVec.xor_self, BitVec.xor_zero]
    · exact haccept ▸ verifycard_of_run hverify _ nT
    · exact haccept ▸ verifycardContinued_of_run hverify hpr _
  · obtain ⟨r2, hresp, hcipher, -⟩ := readerresp_of_runs (nT := 0x82A4166C#32)
      (s := (State.reset.setCipher ⟨0xFFFD66#24, 0xFF7FAE#24⟩).answer (resultField 0xFF77FF5A#32))
      runWord_trace_nonce runWord_trace_answer
    obtain ⟨r3, hverify⟩ := verifycard_of_run (s := r2) (hcipher ▸ runWord_trace_card) 0x5CADF439#32
      0x82A4166C#32
    rw [suc_trace_answer] at hresp
    rw [suc_trace_card] at hverify
    exact ⟨_, r2, r3, initcipher_example _, hresp, hverify⟩

end Sys2Proof.Proofs
end

section
/-! `NONCEDIST` (spec/46_sequences.md rule R154): one turn of its loop, and its two ways to end. -/

namespace Sys2Proof.Proofs

open Sys2Proof.Machine Sys2Proof.Laws

/-- One turn: `PRSTEP 0` shows the nonce that `PR` holds; if it is not the one sought, `PRSTEP 1` moves on
by one. -/
theorem noncedistLoop_succ (n2 : Word) (fuel i : Nat) (s : State) :
    noncedistLoop n2 (fuel + 1) i s =
      if s.pr = n2 then some (BitVec.ofNat 32 i, s.answer (resultField s.pr))
      else noncedistLoop n2 fuel (i + 1)
        (({ s with pr := suc s.pr 1 } : State).answer (resultField (suc s.pr 1))) := by
  simp only [noncedistLoop, issue_prstep _ 0 (by decide), issue_prstep _ 1 (by decide), suc_zero,
    Option.bind_eq_bind, Option.bind_some, setWidth_resultField, Nat.reduceLeDiff, answer_pr]
  rfl

/-- What comes after the next nonce comes one later after this one. -/
theorem suc_suc_one (x : Word) (j : Nat) : suc (suc x 1) j = suc x (j + 1) := by
  rw [← suc_add, Nat.add_comm]

/-- The loop answers its index plus the number of iterations to the first match. -/
theorem noncedistLoop_of_first_match {n2 : Word} {d fuel i : Nat} {s : State} (hd : d < fuel)
    (hmatch : suc s.pr d = n2) (hfirst : ∀ j < d, suc s.pr j ≠ n2) :
    ∃ t, noncedistLoop n2 fuel i s = some (BitVec.ofNat 32 (i + d), t) := by
  induction fuel generalizing d i s with
  | zero => omega
  | succ fuel ih =>
    rw [noncedistLoop_succ]
    cases d with
    | zero => rw [suc_zero] at hmatch; exact ⟨_, if_pos hmatch⟩
    | succ d =>
      have hne : s.pr ≠ n2 := by simpa only [suc_zero] using hfirst 0 d.succ_pos
      rw [if_neg hne, show i + (d + 1) = i + 1 + d by omega]
      refine ih (Nat.lt_of_succ_lt_succ hd) ?_ fun j hj => ?_
      · rw [answer_pr, suc_suc_one, hmatch]
      · rw [answer_pr, suc_suc_one]
        exact hfirst (j + 1) (Nat.succ_lt_succ hj)

/-- Without a match the loop runs out and answers the sentinel. -/
theorem noncedistLoop_of_no_match {n2 : Word} {fuel i : Nat} {s : State}
    (hnone : ∀ j < fuel, suc s.pr j ≠ n2) :
    ∃ t, noncedistLoop n2 fuel i s = some (Config.nonceDistSentinel, t) := by
  induction fuel generalizing i s with
  | zero => exact ⟨s, rfl⟩
  | succ fuel ih =>
    have hne : s.pr ≠ n2 := by simpa only [suc_zero] using hnone 0 fuel.succ_pos
    rw [noncedistLoop_succ, if_neg hne]
    refine ih fun j hj => ?_
    rw [answer_pr, suc_suc_one]
    exact hnone (j + 1) (Nat.succ_lt_succ hj)

theorem noncedist_eq (n1 n2 : Word) (s : State) :
    noncedist n1 n2 s = noncedistLoop n2 65536 0 (({ s with pr := n1 } : State).answer 0#48) := by
  rw [noncedist, issue_eq]
  rfl

theorem noncedist_of_first_match {n : Word} {k : Nat} (hk : k < 65536)
    (hfirst : ∀ j < k, suc n j ≠ suc n k) (s : State) :
    ∃ t, noncedist n (suc n k) s = some (BitVec.ofNat 32 k, t) := by
  rw [noncedist_eq]
  have hloop := noncedistLoop_of_first_match (i := 0)
    (s := ({ s with pr := n } : State).answer 0#48) hk rfl hfirst
  rwa [Nat.zero_add] at hloop

/-- Settles O60: `NONCEDIST` is its loop from `n1` on, which ends at the first match or not at all; a nonce
is its own first match. -/
theorem nonceDistanceCounts : Obligations.NonceDistanceCounts := by
  refine ⟨fun n s => ?_, fun n k s hk hfirst => noncedist_of_first_match hk hfirst s,
    fun n m s hnone => ?_⟩
  · simpa only [suc_zero] using noncedist_of_first_match (n := n) (k := 0) (by decide) (by simp) s
  · rw [noncedist_eq]
    exact noncedistLoop_of_no_match hnone

end Sys2Proof.Proofs
end

section
/-! `IllegalCommand` (spec/60_exceptions.md rules R163 and R164): what taking it does, how the next command
runs after it, and that `ERR` stays set. -/

namespace Sys2Proof.Proofs

open Sys2Proof.Machine Sys2Proof.Laws

/-! ### Taking the exception -/

/-- With an illegal command word at the port, the step takes it and raises `IllegalCommand`. -/
theorem step_of_illegal_command {s : State} {w : CommandWord} {rest : List Input} {c : Cause}
    (hs : s.inputs = .command w :: rest) (hd : decode w = .illegal c) :
    step s = .next (takeIllegal c { s with inputs := rest }) := by
  rw [step_of_inputs_cons hs, afterInput_of_illegal hd]

/-- Settles O8: the step raises `IllegalCommand`, whose response word is the one printed for the cause. -/
theorem illegalCommandEffect : Obligations.IllegalCommandEffect := by
  intro s w rest c hs hd
  rw [step_of_illegal_command hs hd]
  cases c <;> rfl

/-! ### After the exception -/

/-- A command that runs after an exception writes and returns what it would without it, and reports
`ERR = 1`. -/
theorem exec_takeIllegal (i : Instr) (c : Cause) (s : State) :
    exec i (takeIllegal c s) = .next { dataAfter i s with
      err := true, rsp := some (response true false 0#2 (resultOf i s)) } := by
  have hdata := dataAfter_withPort i s true s.inputs (some (response true true c.code 0#48))
  have hres := resultOf_withPort i s true s.inputs (some (response true true c.code 0#48))
  rw [exec_eq, takeIllegal, hdata, hres, ← dataAfter_inputs i s]
  rfl

/-- A step that takes no reset leaves `ERR` set. -/
theorem step_err_of_not_reset {s t : State} (herr : s.err = true)
    (hreset : ∀ rest, s.inputs ≠ .reset :: rest) (h : step s = .next t) : t.err = true := by
  rw [step_err h]
  cases hs : s.inputs with
  | nil => exact herr
  | cons x rest =>
    cases x with
    | reset => exact absurd hs (hreset rest)
    | command w => simp [herr]

/-- Settles O9: the exception leaves the next word at the port and changes nothing a command reads; the
second exception overwrites what the first wrote; only a reset clears `ERR`. -/
theorem afterExceptionCommandsRun : Obligations.AfterExceptionCommandsRun := by
  refine ⟨fun s w v rest c hs hd => ?_, fun s t => step_err_of_not_reset⟩
  have hnext : (takeIllegal c { s with inputs := .command v :: rest }).inputs = .command v :: rest :=
    takeIllegal_inputs _ _
  refine ⟨_, step_of_illegal_command hs hd, fun i hi => ?_, fun d hd' => ?_⟩
  · exact ⟨dataAfter i { s with inputs := rest }, resultOf i { s with inputs := rest },
      (step_of_legal_command hnext hi).trans (exec_takeIllegal i c { s with inputs := rest }),
      exec_withErr i { s with inputs := rest } false⟩
  · exact step_of_illegal_command hnext hd'

end Sys2Proof.Proofs
end

section
/-! The reset event and the absence of hazards (spec/70_reset_and_hazards.md rules R182 and R192): what reset
restores, and that every step completes. -/

namespace Sys2Proof.Proofs

open Sys2Proof.Machine Sys2Proof.Laws

/-- Settles O13: taking a reset gives the reset values, a step that takes none leaves `ERR` set, and the
all-zero key packs to the two zero halves. -/
theorem resetClearsErrAndKey : Obligations.ResetClearsErrAndKey := by
  refine ⟨fun s rest hs => step_of_inputs_cons hs, fun s t herr hstep hclear => ?_,
    fun s => ⟨_, exec_ldkey packKey_zero s, rfl, rfl⟩⟩
  by_contra hreset
  have hset : t.err = true := step_err_of_not_reset herr (not_exists.mp hreset) hstep
  rw [hclear] at hset
  cases hset

/-- Every step completes: with nothing at the port it changes nothing, and otherwise it takes the input. -/
theorem exists_step_eq_next (s : State) : ∃ t, step s = .next t := by
  cases hs : s.inputs with
  | nil => exact ⟨s, waitsWithoutInput s hs⟩
  | cons x rest => exact ⟨_, step_of_inputs_cons hs⟩

/-- Settles O15: the step takes the word, and taking a command word leaves a response at the port. -/
theorem everyCommandAnswered : Obligations.EveryCommandAnswered := by
  refine ⟨fun s w rest hs => ?_, exists_step_eq_next⟩
  obtain ⟨r, hrsp, -⟩ := afterInput_command_rsp w { s with inputs := rest }
  exact ⟨_, r, step_of_inputs_cons hs, hrsp, afterInput_inputs _ _⟩

end Sys2Proof.Proofs
end
